-- ==== Sys2Proof/Word.lean ====
section
/-! DEFINITION. The word types of the engine: bytes, 16-bit words, and the field widths of an instruction word
(10_state.md R20, R22; 30_encoding.md R71). All values are unsigned (00_scope.md R9). -/

namespace Sys2Proof

/-- A general register, a timer, a memory cell: 8 bits (R20, R30, R43). -/
abbrev Byte := BitVec 8

/-- The pc, the index register, a stack slot, an instruction word: 16 bits (R22, R25, R27, R70). -/
abbrev Word := BitVec 16

/-- A register index `x` or `y`, or a literal `n`: one nibble of the instruction word (R71). -/
abbrev Nibble := BitVec 4

/-- The literal `nnn`: the low 12 bits of the instruction word (R71). -/
abbrev Addr12 := BitVec 12

/-- The offending address of a fatal error: 17 bits (10_state.md R34). -/
abbrev FaultAddr := BitVec 17

/-- VF, the register that doubles as the only flag (10_state.md R21). -/
def vf : Nibble := 0xF#4

end Sys2Proof
end

