-- ==== Sys2Proof/Syntax.lean ====
section
/-! DEFINITION. The instructions: one constructor per row of spec/opcode_table.json (30_encoding.md R76).
The operands are the fields of R71 that the row's format (R72) names. Bits that the row's dispatch key and
handler ignore (R75, R82) are kept as the last argument of the constructor (`ign`, or `y` of the two shifts): they
change nothing an instruction does, but the raw word that carries them is what FWORD records on a fatal error
(10_state.md R34), and keeping them makes the encoding of an instruction the very word it was decoded from. -/

namespace Sys2Proof

inductive Instr where
  /-- CLS, `0??0` (R161); `ign` = w[11:4]. -/
  | cls (ign : Byte)
  /-- RET, `0??E` (R101); `ign` = w[11:4]. -/
  | ret (ign : Byte)
  /-- JP nnn, `1nnn` (R102). -/
  | jp (nnn : Addr12)
  /-- CALL nnn, `2nnn` (R103). -/
  | call (nnn : Addr12)
  /-- SE Vx,nn, `3xnn` (R104). -/
  | seImm (x : Nibble) (nn : Byte)
  /-- SNE Vx,nn, `4xnn` (R105). -/
  | sneImm (x : Nibble) (nn : Byte)
  /-- SE Vx,Vy, `5xy?` (R106); `ign` = w[3:0]. -/
  | seReg (x y : Nibble) (ign : Nibble)
  /-- LD Vx,nn, `6xnn` (R121). -/
  | ldImm (x : Nibble) (nn : Byte)
  /-- ADD Vx,nn, `7xnn` (R122). -/
  | addImm (x : Nibble) (nn : Byte)
  /-- LD Vx,Vy, `8xy0` (R123). -/
  | ldReg (x y : Nibble)
  /-- OR Vx,Vy, `8xy1` (R124). -/
  | orReg (x y : Nibble)
  /-- AND Vx,Vy, `8xy2` (R125). -/
  | andReg (x y : Nibble)
  /-- XOR Vx,Vy, `8xy3` (R126). -/
  | xorReg (x y : Nibble)
  /-- ADD Vx,Vy, `8xy4` (R127). -/
  | addReg (x y : Nibble)
  /-- SUB Vx,Vy, `8xy5` (R128). -/
  | subReg (x y : Nibble)
  /-- SHR Vx, `8x?6` (R130); `y` = w[7:4], decoded and not used. -/
  | shr (x y : Nibble)
  /-- SUBN Vx,Vy, `8xy7` (R129). -/
  | subnReg (x y : Nibble)
  /-- SHL Vx, `8x?E` (R131); `y` = w[7:4], decoded and not used. -/
  | shl (x y : Nibble)
  /-- SNE Vx,Vy, `9xy?` (R107); `ign` = w[3:0]. -/
  | sneReg (x y : Nibble) (ign : Nibble)
  /-- LD I,nnn, `Annn` (R141). -/
  | ldI (nnn : Addr12)
  /-- JP V0,nnn, `Bnnn` (R108). -/
  | jpV0 (nnn : Addr12)
  /-- RND Vx,nn, `Cxnn` (R132). -/
  | rnd (x : Nibble) (nn : Byte)
  /-- DRW Vx,Vy,n, `Dxyn` (R162). -/
  | drw (x y n : Nibble)
  /-- SKP Vx, `Ex?E` (R171); `ign` = w[7:4]. -/
  | skp (x : Nibble) (ign : Nibble)
  /-- SKNP Vx, `Ex?1` (R172); `ign` = w[7:4]. -/
  | sknp (x : Nibble) (ign : Nibble)
  /-- LD Vx,DT, `Fx07` (R174). -/
  | ldVxDT (x : Nibble)
  /-- LD Vx,K, `Fx0A` (R173). -/
  | ldVxK (x : Nibble)
  /-- LD DT,Vx, `Fx15` (R175). -/
  | ldDTVx (x : Nibble)
  /-- LD ST,Vx, `Fx18` (R176). -/
  | ldSTVx (x : Nibble)
  /-- ADD I,Vx, `Fx1E` (R142). -/
  | addI (x : Nibble)
  /-- LD F,Vx, `Fx29` (R143). -/
  | ldF (x : Nibble)
  /-- LD B,Vx, `Fx33` (R144). -/
  | ldB (x : Nibble)
  /-- LD [I],Vx, `Fx55` (R145). -/
  | ldMemVx (x : Nibble)
  /-- LD Vx,[I], `Fx65` (R146). -/
  | ldVxMem (x : Nibble)
  deriving DecidableEq, Repr

end Sys2Proof
end

