-- ==== Sys2Proof/WellFormed.lean ====
section
/-! DEFINITION. Well-formed instructions. Every operand field of `Instr` has exactly its encoding's width, so each term
already is an instruction the machine decodes and runs. What is left to check is what 30_encoding.md R75 offers as "a
well-formedness check on programs": that the ignored bits hold the canonical value of R76 (`00E0`, `00EE`, `5xy0`, `9xy0`,
`Ex9E`, `ExA1`; the `y` of `8xy6` and `8xyE` is free there). The check is about programs only: the decoder, the
meanings and the statements take every instruction, well-formed or not. -/

namespace Sys2Proof

/-- The word of the instruction matches its canonical pattern in the table of R76. -/
def Instr.wellFormed : Instr → Bool
  | .cls ign => ign == 0x0E#8
  | .ret ign => ign == 0x0E#8
  | .jp _ => true
  | .call _ => true
  | .seImm _ _ => true
  | .sneImm _ _ => true
  | .seReg _ _ ign => ign == 0x0#4
  | .ldImm _ _ => true
  | .addImm _ _ => true
  | .ldReg _ _ => true
  | .orReg _ _ => true
  | .andReg _ _ => true
  | .xorReg _ _ => true
  | .addReg _ _ => true
  | .subReg _ _ => true
  | .shr _ _ => true
  | .subnReg _ _ => true
  | .shl _ _ => true
  | .sneReg _ _ ign => ign == 0x0#4
  | .ldI _ => true
  | .jpV0 _ => true
  | .rnd _ _ => true
  | .drw _ _ _ => true
  | .skp _ ign => ign == 0x9#4
  | .sknp _ ign => ign == 0xA#4
  | .ldVxDT _ => true
  | .ldVxK _ => true
  | .ldDTVx _ => true
  | .ldSTVx _ => true
  | .addI _ => true
  | .ldF _ => true
  | .ldB _ => true
  | .ldMemVx _ => true
  | .ldVxMem _ => true

end Sys2Proof
end

