-- ==== Sys2Proof/Decode.lean ====
section
/-! DEFINITION. The decoder (30_encoding.md R70 to R84) and the encoder. The decoder extracts the six fields of R71 and
follows the dispatch of R74: a group by `op`, and inside the groups 0x0, 0x8, 0xE by `n`, inside 0xF by `nn`. It is total on
all 65536 words: a word selects one instruction of `Instr` or is unknown (R84). The numeric values are those of R76 and
R83. -/

namespace Sys2Proof

/-- `op = w[15:12]` (R71). -/
def opField (w : Word) : Nibble := w.extractLsb' 12 4
/-- `x = w[11:8]` (R71). -/
def xField (w : Word) : Nibble := w.extractLsb' 8 4
/-- `y = w[7:4]` (R71). -/
def yField (w : Word) : Nibble := w.extractLsb' 4 4
/-- `n = w[3:0]` (R71). -/
def nField (w : Word) : Nibble := w.extractLsb' 0 4
/-- `nn = w[7:0]` (R71). -/
def nnField (w : Word) : Byte := w.extractLsb' 0 8
/-- `nnn = w[11:0]` (R71). -/
def nnnField (w : Word) : Addr12 := w.extractLsb' 0 12
/-- `w[11:4]`, the bits that group 0x0 ignores (R75). -/
def midField (w : Word) : Byte := w.extractLsb' 4 8

/-- Group 0x0, key `n` (R77). -/
def decodeGroup0 (mid : Byte) (n : Nibble) : Option Instr :=
  match n with
  | 0x0#4 => some (.cls mid)
  | 0xE#4 => some (.ret mid)
  | _ => none

/-- Group 0x8, key `n` (R79). -/
def decodeGroup8 (x y n : Nibble) : Option Instr :=
  match n with
  | 0x0#4 => some (.ldReg x y)
  | 0x1#4 => some (.orReg x y)
  | 0x2#4 => some (.andReg x y)
  | 0x3#4 => some (.xorReg x y)
  | 0x4#4 => some (.addReg x y)
  | 0x5#4 => some (.subReg x y)
  | 0x6#4 => some (.shr x y)
  | 0x7#4 => some (.subnReg x y)
  | 0xE#4 => some (.shl x y)
  | _ => none

/-- Group 0xE, key `n` (R80). -/
def decodeGroupE (x y n : Nibble) : Option Instr :=
  match n with
  | 0xE#4 => some (.skp x y)
  | 0x1#4 => some (.sknp x y)
  | _ => none

/-- Group 0xF, key `nn` (R81). -/
def decodeGroupF (x : Nibble) (nn : Byte) : Option Instr :=
  match nn with
  | 0x07#8 => some (.ldVxDT x)
  | 0x0A#8 => some (.ldVxK x)
  | 0x15#8 => some (.ldDTVx x)
  | 0x18#8 => some (.ldSTVx x)
  | 0x1E#8 => some (.addI x)
  | 0x29#8 => some (.ldF x)
  | 0x33#8 => some (.ldB x)
  | 0x55#8 => some (.ldMemVx x)
  | 0x65#8 => some (.ldVxMem x)
  | _ => none

/-- The dispatch of R74 by `op`; `none` is an unknown word (R84). The sixteen values of `op` are all listed, so the last arm is
never reached. -/
def decodeFields (w : Word) : Option Instr :=
  match opField w with
  | 0x0#4 => decodeGroup0 (midField w) (nField w)
  | 0x1#4 => some (.jp (nnnField w))
  | 0x2#4 => some (.call (nnnField w))
  | 0x3#4 => some (.seImm (xField w) (nnField w))
  | 0x4#4 => some (.sneImm (xField w) (nnField w))
  | 0x5#4 => some (.seReg (xField w) (yField w) (nField w))
  | 0x6#4 => some (.ldImm (xField w) (nnField w))
  | 0x7#4 => some (.addImm (xField w) (nnField w))
  | 0x8#4 => decodeGroup8 (xField w) (yField w) (nField w)
  | 0x9#4 => some (.sneReg (xField w) (yField w) (nField w))
  | 0xA#4 => some (.ldI (nnnField w))
  | 0xB#4 => some (.jpV0 (nnnField w))
  | 0xC#4 => some (.rnd (xField w) (nnField w))
  | 0xD#4 => some (.drw (xField w) (yField w) (nField w))
  | 0xE#4 => decodeGroupE (xField w) (yField w) (nField w)
  | 0xF#4 => decodeGroupF (xField w) (nnField w)
  | _ => none

/-- Why the decoder gives no instruction. -/
inductive DecodeError where
  /-- The word selects no handler: the unknown-opcode handler runs it (R84, R199). -/
  | unknownOpcode (w : Word)
  /-- Fewer than two bytes were given: every instruction is exactly 2 bytes long (R70). -/
  | tooShort
  deriving DecidableEq, Repr

/-- The decoder: one handler, or the unknown-opcode handler, for every word (R83, R84, R85). -/
def decode (w : Word) : Except DecodeError Instr :=
  match decodeFields w with
  | some i => .ok i
  | none => .error (.unknownOpcode w)

/-- The instruction word of two bytes in memory order, big-endian: the first byte is w[15:8] (20_memory.md R54). -/
def wordOfBytes (hi lo : Byte) : Word := hi ++ lo

/-- w[15:8], the byte that stands at the lower address (R54). -/
def hiByte (w : Word) : Byte := w.extractLsb' 8 8
/-- w[7:0], the byte that stands at the higher address (R54). -/
def loByte (w : Word) : Byte := w.extractLsb' 0 8

/-- Decode from the bytes of memory: one instruction and the bytes after it. -/
def decodeBytes : List Byte → Except DecodeError (Instr × List Byte)
  | hi :: lo :: rest =>
    match decode (wordOfBytes hi lo) with
    | .ok i => .ok (i, rest)
    | .error e => .error e
  | _ => .error .tooShort

/-- The encoder, from the patterns of R83; an ignored nibble is written from the instruction's own argument. -/
def encode : Instr → Word
  | .cls ign => 0x0#4 ++ ign ++ 0x0#4
  | .ret ign => 0x0#4 ++ ign ++ 0xE#4
  | .jp nnn => 0x1#4 ++ nnn
  | .call nnn => 0x2#4 ++ nnn
  | .seImm x nn => 0x3#4 ++ x ++ nn
  | .sneImm x nn => 0x4#4 ++ x ++ nn
  | .seReg x y ign => 0x5#4 ++ x ++ y ++ ign
  | .ldImm x nn => 0x6#4 ++ x ++ nn
  | .addImm x nn => 0x7#4 ++ x ++ nn
  | .ldReg x y => 0x8#4 ++ x ++ y ++ 0x0#4
  | .orReg x y => 0x8#4 ++ x ++ y ++ 0x1#4
  | .andReg x y => 0x8#4 ++ x ++ y ++ 0x2#4
  | .xorReg x y => 0x8#4 ++ x ++ y ++ 0x3#4
  | .addReg x y => 0x8#4 ++ x ++ y ++ 0x4#4
  | .subReg x y => 0x8#4 ++ x ++ y ++ 0x5#4
  | .shr x y => 0x8#4 ++ x ++ y ++ 0x6#4
  | .subnReg x y => 0x8#4 ++ x ++ y ++ 0x7#4
  | .shl x y => 0x8#4 ++ x ++ y ++ 0xE#4
  | .sneReg x y ign => 0x9#4 ++ x ++ y ++ ign
  | .ldI nnn => 0xA#4 ++ nnn
  | .jpV0 nnn => 0xB#4 ++ nnn
  | .rnd x nn => 0xC#4 ++ x ++ nn
  | .drw x y n => 0xD#4 ++ x ++ y ++ n
  | .skp x ign => 0xE#4 ++ x ++ ign ++ 0xE#4
  | .sknp x ign => 0xE#4 ++ x ++ ign ++ 0x1#4
  | .ldVxDT x => 0xF#4 ++ x ++ 0x07#8
  | .ldVxK x => 0xF#4 ++ x ++ 0x0A#8
  | .ldDTVx x => 0xF#4 ++ x ++ 0x15#8
  | .ldSTVx x => 0xF#4 ++ x ++ 0x18#8
  | .addI x => 0xF#4 ++ x ++ 0x1E#8
  | .ldF x => 0xF#4 ++ x ++ 0x29#8
  | .ldB x => 0xF#4 ++ x ++ 0x33#8
  | .ldMemVx x => 0xF#4 ++ x ++ 0x55#8
  | .ldVxMem x => 0xF#4 ++ x ++ 0x65#8

/-- The bytes of an instruction in memory order (R54, R70). -/
def encodeBytes (i : Instr) : List Byte := [hiByte (encode i), loByte (encode i)]

/-- The instruction word whose low `nbits` bits are those of `w`, all others 0. -/
def tableWord (nbits w : Nat) : Word := BitVec.ofNat 16 (w % 2 ^ nbits)

/-- What the decoder reads from the instruction whose bits are `w`, numbered as spec/opcode_table.json numbers them: one
16-bit word, bit 0 its least significant bit, laid out in memory big-endian. -/
def decodeTableWord (nbits w : Nat) : Option Instr :=
  match decodeBytes [hiByte (tableWord nbits w), loByte (tableWord nbits w)] with
  | .ok (i, _) => some i
  | .error _ => none

/-- A row of the decode table of R83: the words `w` with `w &&& mask = pattern`, and the instruction such a word is. -/
structure OpcodeRow where
  mask : Word
  pattern : Word
  build : Word → Instr

/-- The table of R83, row by row. The decoder above does not use it: that the two agree is a statement. -/
def opcodeTable : List OpcodeRow :=
  [⟨0xF00F, 0x0000, fun w => .cls (midField w)⟩,
   ⟨0xF00F, 0x000E, fun w => .ret (midField w)⟩,
   ⟨0xF000, 0x1000, fun w => .jp (nnnField w)⟩,
   ⟨0xF000, 0x2000, fun w => .call (nnnField w)⟩,
   ⟨0xF000, 0x3000, fun w => .seImm (xField w) (nnField w)⟩,
   ⟨0xF000, 0x4000, fun w => .sneImm (xField w) (nnField w)⟩,
   ⟨0xF000, 0x5000, fun w => .seReg (xField w) (yField w) (nField w)⟩,
   ⟨0xF000, 0x6000, fun w => .ldImm (xField w) (nnField w)⟩,
   ⟨0xF000, 0x7000, fun w => .addImm (xField w) (nnField w)⟩] ++
  [⟨0xF00F, 0x8000, fun w => .ldReg (xField w) (yField w)⟩,
   ⟨0xF00F, 0x8001, fun w => .orReg (xField w) (yField w)⟩,
   ⟨0xF00F, 0x8002, fun w => .andReg (xField w) (yField w)⟩,
   ⟨0xF00F, 0x8003, fun w => .xorReg (xField w) (yField w)⟩,
   ⟨0xF00F, 0x8004, fun w => .addReg (xField w) (yField w)⟩,
   ⟨0xF00F, 0x8005, fun w => .subReg (xField w) (yField w)⟩,
   ⟨0xF00F, 0x8006, fun w => .shr (xField w) (yField w)⟩,
   ⟨0xF00F, 0x8007, fun w => .subnReg (xField w) (yField w)⟩,
   ⟨0xF00F, 0x800E, fun w => .shl (xField w) (yField w)⟩] ++
  [⟨0xF000, 0x9000, fun w => .sneReg (xField w) (yField w) (nField w)⟩,
   ⟨0xF000, 0xA000, fun w => .ldI (nnnField w)⟩,
   ⟨0xF000, 0xB000, fun w => .jpV0 (nnnField w)⟩,
   ⟨0xF000, 0xC000, fun w => .rnd (xField w) (nnField w)⟩,
   ⟨0xF000, 0xD000, fun w => .drw (xField w) (yField w) (nField w)⟩,
   ⟨0xF00F, 0xE00E, fun w => .skp (xField w) (yField w)⟩,
   ⟨0xF00F, 0xE001, fun w => .sknp (xField w) (yField w)⟩,
   ⟨0xF0FF, 0xF007, fun w => .ldVxDT (xField w)⟩,
   ⟨0xF0FF, 0xF00A, fun w => .ldVxK (xField w)⟩] ++
  [⟨0xF0FF, 0xF015, fun w => .ldDTVx (xField w)⟩,
   ⟨0xF0FF, 0xF018, fun w => .ldSTVx (xField w)⟩,
   ⟨0xF0FF, 0xF01E, fun w => .addI (xField w)⟩,
   ⟨0xF0FF, 0xF029, fun w => .ldF (xField w)⟩,
   ⟨0xF0FF, 0xF033, fun w => .ldB (xField w)⟩,
   ⟨0xF0FF, 0xF055, fun w => .ldMemVx (xField w)⟩,
   ⟨0xF0FF, 0xF065, fun w => .ldVxMem (xField w)⟩]

end Sys2Proof
end

