-- ==== Sys2Proof/Config.lean ====
section
/-! DEFINITION. What is fixed for the engine: the constants of 00_scope.md R7, the FONT parameter of 10_state.md R41 with
its default, the record of the host's inputs of one step (45_execution_loop.md R190), and the inputs as free values. -/

namespace Sys2Proof

/-! ### The constants of 00_scope.md R7 -/

/-- `MEM_SIZE`: addresses 0 to 4095 (R7, R50). -/
abbrev Config.memSize : Nat := 4096
/-- `PROG_BASE`: the program's load address and the entry point (R7, R51). -/
abbrev Config.progBase : Nat := 0x200
/-- `RESERVED`, the first address (R7). -/
abbrev Config.reservedFirst : Nat := 0x000
/-- `RESERVED`, the last address (R7). The range is a convention for programs and no check (R51, R60). -/
abbrev Config.reservedLast : Nat := 0x1FF
/-- `FONT_BASE`: the address of glyph 0 (R7). -/
abbrev Config.fontBase : Nat := 0x000
/-- `GLYPH_BYTES` (R7). -/
abbrev Config.glyphBytes : Nat := 5
/-- `NGLYPH` (R7). -/
abbrev Config.nGlyph : Nat := 16
/-- `NREG` (R7). -/
abbrev Config.nReg : Nat := 16
/-- `STACK_DEPTH` (R7). -/
abbrev Config.stackDepth : Nat := 16
/-- `PC_WIDTH`: the pc is a `Word` (R7, R22). -/
abbrev Config.pcWidth : Nat := 16
/-- `I_WIDTH`: the index register is a `Word` (R7, R25). -/
abbrev Config.iWidth : Nat := 16
/-- `TIMER_WIDTH`: a timer is a `Byte` (R7, R30, R31). -/
abbrev Config.timerWidth : Nat := 8
/-- `TICK_HZ` (R7). The model has no time: how many ticks fall on a step is an input (log entry 24). -/
abbrev Config.tickHz : Nat := 60
/-- `NKEY` (R7). -/
abbrev Config.nKey : Nat := 16
/-- `FB_W` (R7). -/
abbrev Config.fbWidth : Nat := 64
/-- `FB_H` (R7). -/
abbrev Config.fbHeight : Nat := 32
/-- `INSTR_BYTES`, as the pc counts them (R7). -/
abbrev Config.instrBytes : Word := 2
/-- `MAX_PROG` = `MEM_SIZE - PROG_BASE`, 3584 bytes (R7). -/
abbrev Config.maxProg : Nat := Config.memSize - Config.progBase

/-! ### The parameter FONT -/

/-- A value of the parameter `FONT[0..79]`: the bytes of 16 glyphs of 5 bytes (00_scope.md R8, 10_state.md R41). It is an
argument of reset and launch (Machine/Boot.lean); no step reads it. -/
abbrev Config.Font : Type := Vector Byte (Config.nGlyph * Config.glyphBytes)

/-- The default table of R41, row by row. -/
def Config.fontTable : List Byte :=
  [0xF0, 0x90, 0x90, 0x90, 0xF0,  0x20, 0x60, 0x20, 0x20, 0x70,
   0xF0, 0x10, 0xF0, 0x80, 0xF0,  0xF0, 0x10, 0xF0, 0x10, 0xF0] ++
  [0x90, 0x90, 0xF0, 0x10, 0x10,  0xF0, 0x80, 0xF0, 0x10, 0xF0,
   0xF0, 0x80, 0xF0, 0x90, 0xF0,  0xF0, 0x10, 0x20, 0x40, 0x40] ++
  [0xF0, 0x90, 0xF0, 0x90, 0xF0,  0xF0, 0x90, 0xF0, 0x10, 0xF0,
   0xF0, 0x90, 0xF0, 0x90, 0x90,  0xE0, 0x90, 0xE0, 0x90, 0xE0] ++
  [0xF0, 0x80, 0x80, 0x80, 0xF0,  0xE0, 0x90, 0x90, 0x90, 0xE0,
   0xF0, 0x80, 0xF0, 0x80, 0xF0,  0xF0, 0x80, 0xF0, 0x80, 0x80]

/-- The default value of the parameter (R41, D5; log entry 4). -/
def Config.defaultFont : Config.Font := ⟨Config.fontTable.toArray, rfl⟩

/-- The host's inputs of one step (45_execution_loop.md R190). -/
structure StepInput where
  /-- `ABORT` (10_state.md R44, R192). -/
  abort : Bool
  /-- `K`: bit `k` is 1 when key `k` is down (R39, R194). -/
  keys : BitVec Config.nKey
  /-- `KEY_EVT`: none, or a key index 0 to 15 (R40). -/
  keyEvt : Option Nibble
  /-- `RND`: the random byte (R42). -/
  rnd : Byte
  /-- `TICKS`: the 60 Hz ticks that fire at the boundary after the step (R44, R203). -/
  ticks : Nat
  deriving DecidableEq, Repr, Inhabited

/-- FREE VALUE: the host's inputs of step number `n`, where State holds no record for it. The spec makes them free
inputs of each step (R12, R190); nothing constrains this constant (log entry 1). -/
opaque Config.freeInput : Nat → StepInput

end Sys2Proof
end

