-- ==== Sys2Proof/Machine/State.lean ====
section
/-! DEFINITION. The state of the engine as plain data: every piece of state 10_state.md names (R20 to R38, R43), the
model's own three fields for the inputs and outputs of a step, the reasons a step can stop, and the state after reset
(10_state.md R46, 70_reset_and_hazards.md R250). -/

namespace Sys2Proof.Machine

/-- `STATUS` (10_state.md R33). -/
inductive Status where
  | running
  | halted
  deriving DecidableEq, Repr

/-- The three fatal errors that can arise while instructions execute (60_exceptions.md R220 to R223). -/
inductive FatalError where
  /-- A memory access at 4096 or more (R221). -/
  | addressOutOfRange
  /-- CALL with SP = 16 (R222). -/
  | stackOverflow
  /-- RET with SP = 0 (R223). -/
  | stackUnderflow
  deriving DecidableEq, Repr

/-- `CAUSE` (10_state.md R34). -/
inductive Cause where
  | none
  | endOfProgram
  | abort
  | fatal (e : FatalError)
  deriving DecidableEq, Repr

/-- The framebuffer: 32 rows of 64 cells, a cell on or off (10_state.md R37). -/
abbrev Framebuffer := Vector (Vector Bool Config.fbWidth) Config.fbHeight

/-- Memory: the cells that differ from the reset content, addresses strictly rising (20_memory.md R50). -/
abbrev Memory := List Host.Cell

/-- The output events of a step (10_state.md R45). -/
inductive Event where
  /-- `Present(fb)`: a snapshot of the framebuffer (R204). -/
  | present (fb : Framebuffer)
  /-- `UnknownOpcode(word, pc)` (R199). -/
  | unknownOpcode (word pc : Word)
  /-- `Fatal(cause, pc, word, addr)` (R225). -/
  | fatal (e : FatalError) (pc word : Word) (addr : FaultAddr)
  deriving DecidableEq, Repr

/-- Why a step of the model has no next state. The spec's own errors are no such reason: 60_exceptions.md R225 says what
state they leave, and the model takes that next state. -/
inductive Fault where
  /-- SP is above 16 at a CALL or a RET: a value the spec calls unreachable (10_state.md R26), for which it gives no effect.
  Raised by the meanings of CALL and RET. Safe: no state that a run reaches holds it (log entry 6). -/
  | stackPointerUnreachable
  deriving DecidableEq, Repr

/-- Why the model declines an instruction. -/
inductive Refusal where
  /-- The instruction has no meaning in this model yet. Raised by an arm of `exec` alone. Safe. -/
  | notModelled (mnemonic : String)
  deriving DecidableEq, Repr

structure State where
  /-- V0 to VF (R20); VF is `v[15]` (R21). -/
  v : Vector Byte Config.nReg
  /-- The program counter (R22). -/
  pc : Word
  /-- The index register I (R25). -/
  idx : Word
  /-- SP, the number of return addresses on the stack (R26). -/
  sp : BitVec 5
  /-- STACK[0..15] (R27). -/
  stack : Vector Word Config.stackDepth
  /-- The delay timer DT (R30). -/
  dt : Byte
  /-- The sound timer ST (R31). -/
  st : Byte
  /-- STATUS (R33). -/
  status : Status
  /-- CAUSE (R34). -/
  cause : Cause
  /-- FPC, the pc of the failing instruction (R34). -/
  fpc : Word
  /-- FWORD, the word of the failing instruction, 0 if its fetch failed (R34). -/
  fword : Word
  /-- FADDR, the offending address (R34). -/
  faddr : FaultAddr
  /-- WAIT, set while LD Vx,K has found no key event (R35). -/
  wait : Bool
  /-- PROG_SIZE, the number of program bytes loaded (R36). -/
  progSize : BitVec 12
  /-- FB; `fb[r][c]` is the spec's FB[c, r] (R37). -/
  fb : Framebuffer
  /-- DIRTY (R38). -/
  dirty : Bool
  /-- MEM (R43). -/
  mem : Memory
  /-- The model's own: the host's inputs of the coming steps, the next step's first (R190; log entry 1). -/
  inputs : List StepInput
  /-- The model's own: the number of the next step, which indexes the free inputs (log entry 1). -/
  seq : Nat
  /-- The model's own: the events the latest step emitted, in order (R45; log entry 2). -/
  events : List Event
  deriving DecidableEq, Repr

/-- All 2048 cells off. -/
def Framebuffer.off : Framebuffer := Vector.replicate Config.fbHeight (Vector.replicate Config.fbWidth false)

/-- The state after reset with the default FONT (10_state.md R41, R46, 70_reset_and_hazards.md R250 to R253). `State.hostReset`
takes FONT as its argument. -/
def State.reset : State where
  v := Vector.replicate Config.nReg 0
  pc := BitVec.ofNat 16 Config.progBase
  idx := 0
  sp := 0
  stack := Vector.replicate Config.stackDepth 0
  dt := 0
  st := 0
  status := .running
  cause := .none
  fpc := 0
  fword := 0
  faddr := 0
  wait := false
  progSize := 0
  fb := Framebuffer.off
  dirty := false
  mem := []
  inputs := []
  seq := 0
  events := []

end Sys2Proof.Machine
end

