-- ==== Sys2Proof/Machine/Ops.lean ====
section
/-! DEFINITION. The named operations over the state: memory (20_memory.md), registers, the increment step, the stack, the
inputs and events of a step, and the taking of a fatal error (60_exceptions.md R225), which is the engine's only exception
entry. There is no return from one (R230): Halted is absorbing and only reset (Machine/Boot.lean) leaves it. -/

namespace Sys2Proof.Machine

/-! ### Memory -/

/-- What a cell holds at reset with the default FONT, and so what an address the list does not name reads as: the default
table from FONT_BASE on, else 0 (10_state.md R41, R46, 70_reset_and_hazards.md R251). Another FONT is listed (`fontMemory`). -/
def resetByte (a : Nat) : Byte := if Config.fontBase ≤ a then Config.fontTable.getD (a - Config.fontBase) 0 else 0

/-- The listed value of an address; the list is sorted, so the search stops at a greater address. -/
def Memory.lookup : Memory → Nat → Option Byte
  | [], _ => none
  | (b, u) :: m, a => if a = b then some u else if a < b then none else Memory.lookup m a

/-- The byte of an existing cell (R43). -/
def Memory.peek (m : Memory) (a : Nat) : Byte := (Memory.lookup m a).getD (resetByte a)

/-- Change one cell (R53), keeping the canonical form: sorted, and nothing listed that equals the reset content. -/
def Memory.poke : Memory → Nat → Byte → Memory
  | [], a, v => if v = resetByte a then [] else [(a, v)]
  | (b, u) :: m, a, v =>
    if a < b then (if v = resetByte a then (b, u) :: m else (a, v) :: (b, u) :: m)
    else if a = b then (if v = resetByte a then m else (a, v) :: m)
    else (b, u) :: Memory.poke m a v

/-- The canonical form from the lowest address still allowed. -/
def Memory.wfFrom : Nat → Memory → Bool
  | _, [] => true
  | lo, (a, v) :: m =>
    decide (lo ≤ a) && decide (a < Config.memSize) && decide (v ≠ resetByte a) && Memory.wfFrom (a + 1) m

/-- The canonical form of memory: addresses strictly rising and below 4096, no entry equal to the reset content. -/
def Memory.wf (m : Memory) : Bool := Memory.wfFrom 0 m

/-- `MemRead(addr, 1)`; an error carries the address of AddressOutOfRange (R52). -/
def memRead1 (m : Memory) (addr : Nat) : Except Nat Byte :=
  if Config.memSize ≤ addr then .error addr else .ok (Memory.peek m addr)

/-- `MemRead(addr, 2)`, used only by the fetch: big-endian (R52, R54). -/
def memRead2 (m : Memory) (addr : Nat) : Except Nat Word :=
  match memRead1 m addr with
  | .error a => .error a
  | .ok hi =>
    match memRead1 m (addr + 1) with
    | .error a => .error a
    | .ok lo => .ok (wordOfBytes hi lo)

/-- `MemWrite(addr, 1, v)` (R53). -/
def memWrite1 (m : Memory) (addr : Nat) (v : Byte) : Except Nat Memory :=
  if Config.memSize ≤ addr then .error addr else .ok (Memory.poke m addr v)

/-- The bytes at `a`, `a + 1`, …, `a + n - 1`, read in ascending order (R56); only for a range that `rangeFault` lets
pass. -/
def readBlock (m : Memory) (a n : Nat) : List Byte := (List.range n).map fun k => Memory.peek m (a + k)

/-- Byte writes at `a`, `a + 1`, … in ascending order (R56); only for a range that `rangeFault` lets pass. -/
def writeBlock : Memory → Nat → List Byte → Memory
  | m, _, [] => m
  | m, a, b :: bs => writeBlock (Memory.poke m a b) (a + 1) bs

/-- The memory of a reset with a given FONT: its bytes from FONT_BASE on, 0 elsewhere (70_reset_and_hazards.md R251). Only the
bytes that differ from the default table are listed. -/
def fontMemory (font : Config.Font) : Memory := writeBlock [] Config.fontBase font.toList

/-- The check of a whole range of `n` bytes at `a` before its first access: the lowest out-of-range address,
`max(a, 4096)`, or none (42_index_memory.md R140 (e), 43_display.md R162). No address of an empty range is out of range. -/
def rangeFault (a n : Nat) : Option Nat :=
  if 0 < n ∧ Config.memSize ≤ a + n - 1 then some (max a Config.memSize) else none

/-- One byte of the state's memory. -/
def State.readByte (s : State) (a : Nat) : Byte := Memory.peek s.mem a

/-! ### Registers -/

/-- Read `V[x]` (00_scope.md R10). -/
def State.getV (s : State) (x : Nibble) : Byte := s.v[x.toNat]'x.isLt

/-- Write `V[x]` (R10). -/
def State.setV (s : State) (x : Nibble) (b : Byte) : State := { s with v := s.v.set x.toNat b x.isLt }

/-- The bytes of `V[0]`, …, `V[x]`, ascending (42_index_memory.md R145). -/
def State.firstRegs (s : State) (x : Nibble) : List Byte :=
  (List.range (x.toNat + 1)).map fun k => s.getV (BitVec.ofNat 4 k)

/-- Load registers from `V[k]` upwards with the given bytes, ascending (R146). -/
def State.loadRegs : State → Nat → List Byte → State
  | s, _, [] => s
  | s, k, b :: bs => State.loadRegs (s.setV (BitVec.ofNat 4 k) b) (k + 1) bs

/-- The loop's increment step: pc plus 2, modulo 65536 (45_execution_loop.md R198). -/
def State.advance (s : State) : State := { s with pc := s.pc + Config.instrBytes }

/-- The write of pc by a control-flow handler (40_control_flow.md R100). -/
def State.jump (s : State) (target : Word) : State := { s with pc := target }

/-- The output level SOUND_ON (10_state.md R31, R45). -/
def State.soundOn (s : State) : Bool := s.st != 0

/-! ### The stack -/

/-- Push pc on the stack: STACK[SP] is written, then SP counts one more (10_state.md R26, R27). -/
def State.pushPc (s : State) (h : s.sp.toNat < Config.stackDepth) : State :=
  { s with stack := s.stack.set s.sp.toNat s.pc h, sp := s.sp + 1 }

/-- The top entry STACK[SP - 1] of a stack that is not empty (R27). -/
def State.stackTop (s : State) (h : s.sp.toNat - 1 < Config.stackDepth) : Word := s.stack[s.sp.toNat - 1]'h

/-- Drop the top entry; its slot keeps its value (R27). -/
def State.popStack (s : State) : State := { s with sp := s.sp - 1 }

/-! ### Inputs, events, errors -/

/-- The host's inputs of the current step (45_execution_loop.md R190): the next record, or free values when State holds
none (log entry 1). -/
def State.input (s : State) : StepInput :=
  match s.inputs with
  | [] => Config.freeInput s.seq
  | inp :: _ => inp

/-- The step has used its inputs. -/
def State.consumeInput (s : State) : State := { s with inputs := s.inputs.tail, seq := s.seq + 1 }

/-- Output one event (10_state.md R45). -/
def State.emit (s : State) (e : Event) : State := { s with events := s.events ++ [e] }

/-- TAKE A FATAL ERROR (60_exceptions.md R225): `s` is the state at the head of the instruction, so that every write the
instruction would have made is discarded (R229); pc, SP and the stack stay. `word` is the instruction word, 0 if the fetch
failed; `addr` the offending address, 0 for the two stack errors. -/
def State.takeFatal (s : State) (e : FatalError) (word : Word) (addr : Nat) : State :=
  { s with
    status := .halted
    cause := .fatal e
    fpc := s.pc
    fword := word
    faddr := BitVec.ofNat 17 addr
    events := s.events ++ [.fatal e s.pc word (BitVec.ofNat 17 addr)] }

/-- Halt for a reason that is no error: abort or end of program (45_execution_loop.md R192, R193). -/
def State.haltWith (s : State) (c : Cause) : State := { s with status := .halted, cause := c }

/-- The numeric code of a CAUSE value (60_exceptions.md R227). -/
def causeCode : Cause → Byte
  | .none => 0x00
  | .endOfProgram => 0x01
  | .abort => 0x02
  | .fatal .addressOutOfRange => 0x10
  | .fatal .stackOverflow => 0x11
  | .fatal .stackUnderflow => 0x12

end Sys2Proof.Machine
end

