-- ==== Sys2Proof/Machine/Operands.lean ====
section
/-! DEFINITION. The operand forms (30_encoding.md R73, 42_index_memory.md R140): literals zero-extended, effective addresses
`I + k` as natural numbers, the target of a skip, the address of a glyph, the decimal digits, and the key a register names. -/

namespace Sys2Proof.Machine

/-- `nnn` zero-extended to 16 bits (R73). -/
def zext16 (nnn : Addr12) : Word := nnn.setWidth 16

/-- A register value as a 16-bit quantity. -/
def byteToWord (b : Byte) : Word := b.setWidth 16

/-- A nibble as an 8-bit value. -/
def nibbleToByte (k : Nibble) : Byte := k.setWidth 8

/-- The effective address of the `k`-th byte at I: a natural number, never wrapped and never masked (20_memory.md R59). -/
def State.ea (s : State) (k : Nat) : Nat := s.idx.toNat + k

/-- The pc a conditional skip writes: `pc0 + 4` if it skips, `pc0 + 2` if not (40_control_flow.md R100). -/
def State.skipTarget (s : State) (cond : Bool) : Word :=
  if cond then s.pc + 2 * Config.instrBytes else s.pc + Config.instrBytes

/-- The target of JP V0: `nnn + V[0]`, no reduction to 12 bits (R108). -/
def State.offsetTarget (s : State) (nnn : Addr12) : Word := zext16 nnn + byteToWord (s.getV 0)

/-- The address of a glyph: five times the whole 8-bit value (42_index_memory.md R143). -/
def glyphAddr (b : Byte) : Word := byteToWord b * BitVec.ofNat 16 Config.glyphBytes

/-- Hundreds, tens and ones digit (R144). -/
def bcdDigits (b : Byte) : List Byte :=
  [BitVec.ofNat 8 (b.toNat / 100), BitVec.ofNat 8 (b.toNat / 10 % 10), BitVec.ofNat 8 (b.toNat % 10)]

/-- Whether the key named by a register value is down in the sample `K`: a value of 16 or more names no key and is never
down (44_keys_timers.md R171). -/
def keyDown (keys : BitVec Config.nKey) (b : Byte) : Bool := decide (b.toNat < Config.nKey) && keys.getLsbD b.toNat

end Sys2Proof.Machine
end

