-- ==== Sys2Proof/Machine/Flags.lean ====
section
/-! DEFINITION. The flag values that six instructions write into VF (10_state.md R29), each 0 or 1, and the write order of
flag and result (41_alu.md R120). -/

namespace Sys2Proof.Machine

/-- A flag value as VF holds it: exactly 0 or 1 (R21). -/
def flagByte (b : Bool) : Byte := if b then 1 else 0

/-- ADD Vx,Vy: carry out of bit 7 (R127). -/
def carryFlag (vx vy : Byte) : Byte := flagByte (decide (255 < vx.toNat + vy.toNat))

/-- SUB and SUBN: no borrow when the first is greater or equal (R128, R129, R133 (c)). -/
def noBorrowFlag (minuend subtrahend : Byte) : Byte := flagByte (decide (subtrahend.toNat ≤ minuend.toNat))

/-- SHR: bit 0 before the shift (R130). -/
def shrFlag (vx : Byte) : Byte := flagByte (vx.getLsbD 0)

/-- SHL: bit 7 before the shift (R131). -/
def shlFlag (vx : Byte) : Byte := flagByte (vx.getLsbD 7)

/-- Write VF, then `V[x]`: with `x = 0xF` the result stays and the flag is lost (R120). -/
def State.setFlagThenResult (s : State) (x : Nibble) (flag result : Byte) : State :=
  (s.setV vf flag).setV x result

end Sys2Proof.Machine
end

