-- ==== Sys2Proof/Machine/Loop.lean ====
section
/-! DEFINITION. The parts of the execution loop around a handler (45_execution_loop.md): the end-of-program test, the fetch,
the unknown-opcode handler, Present and the ticks. Machine/Step.lean puts them in the order of R205. -/

namespace Sys2Proof.Machine

/-- `PROG_SIZE + 0x200`, at most 0x1000 for a legal PROG_SIZE (R193). -/
def State.progLimit (s : State) : Nat := s.progSize.toNat + Config.progBase

/-- The end-of-program test: strictly greater (R193). -/
def State.pastEnd (s : State) : Bool := decide (s.progLimit < s.pc.toNat)

/-- The fetch: the word at pc, or the lowest out-of-range address (R195). -/
def State.fetch (s : State) : Except Nat Word := memRead2 s.mem s.pc.toNat

/-- UNKNOWN, the unknown-opcode handler with the increment that follows it (R198, R199). -/
def execUnknown (w : Word) (s : State) : State := (s.emit (.unknownOpcode w s.pc)).advance

/-- What one tick does to a timer: down by one, never below 0 (10_state.md R32, 60_exceptions.md R235). -/
def tickTimer (t : Byte) : Byte := if t = 0 then 0 else t - 1

/-- One tick (R235). -/
def State.tick (s : State) : State := { s with dt := tickTimer s.dt, st := tickTimer s.st }

/-- Ticks one after the other (R203). -/
def State.ticks : Nat → State → State
  | 0, s => s
  | n + 1, s => State.ticks n s.tick

/-- Present: if DIRTY, emit a snapshot of the framebuffer and clear DIRTY (R204). -/
def State.present (s : State) : State :=
  if s.dirty then { s.emit (.present s.fb) with dirty := false } else s

/-- The boundary after an instruction that left the engine Running: Present, then the step's ticks unless the engine waits
for a key, which discards them (R203, R204, R205, R237). After a fatal error neither happens (R201). -/
def State.boundary (s : State) : State :=
  if s.status = .running then
    if s.wait then s.present else State.ticks s.input.ticks s.present
  else s

/-- The end of every step: its inputs are used up. -/
def State.endStep (s : State) : State := s.boundary.consumeInput

/-- The head of every step: no event of this step yet. -/
def State.beginStep (s : State) : State := { s with events := [] }

/-- One step in the order of R205, with `run` for the execute part of a decoded instruction: already halted (R191), abort
(R192), end of program (R193), fetch fault (R195), and else the instruction (R196 to R199), in each case with the end of the
step after it. -/
def stepWith (run : Instr → State → Host.Outcome State Fault Refusal) (s : State) : Host.Outcome State Fault Refusal :=
  match s.status with
  | .halted => .next s.beginStep.endStep
  | .running =>
    if s.input.abort then .next (s.beginStep.haltWith .abort).endStep
    else if s.pastEnd then .next (s.beginStep.haltWith .endOfProgram).endStep
    else
      match s.fetch with
      | .error a => .next (s.beginStep.takeFatal .addressOutOfRange 0 a).endStep
      | .ok w =>
        match decode w with
        | .error _ => .next (execUnknown w s.beginStep).endStep
        | .ok i =>
          match run i s.beginStep with
          | .next u => .next u.endStep
          | .fault f => .fault f
          | .refused r => .refused r

/-- The address from which the next step can be made to fetch: pc itself wherever a fetch is possible. -/
def State.fetchablePc (s : State) : Word :=
  if s.pc.toNat + 1 < Config.memSize then s.pc else BitVec.ofNat 16 Config.progBase

/-- The host's inputs of the next step, but for an abort; an idle host where State holds no record (its random byte stays
free). -/
def State.inputWithoutAbort (s : State) : StepInput :=
  match s.inputs with
  | [] => { abort := false, keys := 0, keyEvt := none, rnd := (Config.freeInput s.seq).rnd, ticks := 0 }
  | r :: _ => { r with abort := false }

/-- The engine made ready to fetch at `fetchablePc`: Running, not past the end of the program, no abort asked for. -/
def State.readyToFetch (s : State) : State :=
  { s with
    pc := s.fetchablePc
    status := .running
    cause := match s.status with
      | .running => s.cause
      | .halted => .none
    progSize := if s.progLimit < s.fetchablePc.toNat then BitVec.ofNat 12 Config.maxProg else s.progSize
    inputs := s.inputWithoutAbort :: s.inputs.tail }

end Sys2Proof.Machine
end

