-- ==== Sys2Proof/Machine/Boot.lean ====
section
/-! DEFINITION. The host's reset and load actions (70_reset_and_hazards.md). They are no part of a step: reset may be applied
in any state and ends the run (R250); the load action is performed once, right after it and before the first step (R256,
R257). Loading into a running engine is not defined by the spec (R257), and the model has no such operation: `State.launch`
always resets first. -/

namespace Sys2Proof.Machine

/-- The two load-time errors: there is no run (60_exceptions.md R226). -/
inductive LoadError where
  | programTooLarge
  | romReadFailure
  deriving DecidableEq, Repr

/-- The numeric codes of the load-time errors (R227). -/
def loadErrorCode : LoadError → Byte
  | .programTooLarge => 0x20
  | .romReadFailure => 0x21

/-- The reset operation with the parameter FONT, in any state (R250, R251). What the host will supply later is not the engine's
and stays. -/
def State.hostReset (font : Config.Font) (s : State) : State :=
  { State.reset with mem := fontMemory font, inputs := s.inputs, seq := s.seq }

/-- The load action: byte `i` goes to `0x200 + i`, PROG_SIZE becomes the length; more than 3584 bytes are refused and nothing
is written (R226, R257). -/
def State.loadImage (s : State) (bytes : List Byte) : Except LoadError State :=
  if Config.maxProg < bytes.length then .error .programTooLarge
  else .ok { s with
    mem := writeBlock s.mem Config.progBase bytes
    progSize := BitVec.ofNat 12 bytes.length }

/-- The boot sequence (R254 to R256): reset, then load what the loader read; `none` is a ROM that could not be read
completely (R226, R255). The result is the launch state of the run, a function of the program bytes and FONT. -/
def State.launch (font : Config.Font) (rom : Option (List Byte)) (s : State) : Except LoadError State :=
  match rom with
  | none => .error .romReadFailure
  | some bytes => (s.hostReset font).loadImage bytes

end Sys2Proof.Machine
end

