-- ==== Sys2Proof/Machine/Control.lean ====
section
/-! DEFINITION. The control-flow instructions (40_control_flow.md): each writes pc itself, and the loop's increment does not
run (R100). -/

namespace Sys2Proof.Machine

/-- RET (R101): the popped address is that of the CALL, so the next instruction is 2 further. -/
def execRet (ign : Byte) (s : State) : Host.Outcome State Fault Refusal :=
  if s.sp.toNat = 0 then .next (s.takeFatal .stackUnderflow (encode (.ret ign)) 0)
  else if h : s.sp.toNat - 1 < Config.stackDepth then .next (s.popStack.jump (s.stackTop h + Config.instrBytes))
  else .fault .stackPointerUnreachable

/-- JP nnn (R102). -/
def execJp (nnn : Addr12) (s : State) : Host.Outcome State Fault Refusal :=
  .next (s.jump (zext16 nnn))

/-- CALL nnn (R103): pushes the address of the CALL itself. -/
def execCall (nnn : Addr12) (s : State) : Host.Outcome State Fault Refusal :=
  if s.sp.toNat = Config.stackDepth then .next (s.takeFatal .stackOverflow (encode (.call nnn)) 0)
  else if h : s.sp.toNat < Config.stackDepth then .next ((s.pushPc h).jump (zext16 nnn))
  else .fault .stackPointerUnreachable

/-- SE Vx,nn (R104). -/
def execSeImm (x : Nibble) (nn : Byte) (s : State) : Host.Outcome State Fault Refusal :=
  .next (s.jump (s.skipTarget (s.getV x == nn)))

/-- SNE Vx,nn (R105). -/
def execSneImm (x : Nibble) (nn : Byte) (s : State) : Host.Outcome State Fault Refusal :=
  .next (s.jump (s.skipTarget (s.getV x != nn)))

/-- SE Vx,Vy (R106). -/
def execSeReg (x y _ign : Nibble) (s : State) : Host.Outcome State Fault Refusal :=
  .next (s.jump (s.skipTarget (s.getV x == s.getV y)))

/-- SNE Vx,Vy (R107). -/
def execSneReg (x y _ign : Nibble) (s : State) : Host.Outcome State Fault Refusal :=
  .next (s.jump (s.skipTarget (s.getV x != s.getV y)))

/-- JP V0,nnn (R108). -/
def execJpV0 (nnn : Addr12) (s : State) : Host.Outcome State Fault Refusal :=
  .next (s.jump (s.offsetTarget nnn))

end Sys2Proof.Machine
end

