-- ==== Sys2Proof/Machine/Display.lean ====
section
/-! DEFINITION. The display instructions (43_display.md) and the sprite operation of R162 they rest on. Presentation is the
loop's (Machine/Loop.lean). -/

namespace Sys2Proof.Machine

/-- FB[c, r] (10_state.md R37). -/
def Framebuffer.cell (fb : Framebuffer) (c : Fin Config.fbWidth) (r : Fin Config.fbHeight) : Bool := fb[r][c]

/-- Write FB[c, r]. -/
def Framebuffer.setCell (fb : Framebuffer) (c : Fin Config.fbWidth) (r : Fin Config.fbHeight) (b : Bool) : Framebuffer :=
  fb.set r (fb[r].set c b)

/-- The column of sprite column `c` for a sprite drawn at `vx`: wraps, never clipped (R162). -/
def spriteCol (vx : Byte) (c : Nat) : Fin Config.fbWidth := ⟨(vx.toNat + c) % Config.fbWidth, Nat.mod_lt _ (by decide)⟩

/-- The row of sprite row `r` for a sprite drawn at `vy` (R162). -/
def spriteRow (vy : Byte) (r : Nat) : Fin Config.fbHeight := ⟨(vy.toNat + r) % Config.fbHeight, Nat.mod_lt _ (by decide)⟩

/-- One sprite bit: a collision is a set bit on a set cell; the bit is XORed into the cell (R162). The second component is
the collision so far. -/
def drawBit (c : Fin Config.fbWidth) (r : Fin Config.fbHeight) (bit : Bool) (p : Framebuffer × Bool) : Framebuffer × Bool :=
  (Framebuffer.setCell p.1 c r (Framebuffer.cell p.1 c r ^^ bit), p.2 || (bit && Framebuffer.cell p.1 c r))

/-- One sprite byte, columns 0 to 7; column 0 is bit 7 (R162). -/
def drawByte (vx : Byte) (r : Fin Config.fbHeight) (b : Byte) (p : Framebuffer × Bool) : Framebuffer × Bool :=
  (List.range 8).foldl (fun q c => drawBit (spriteCol vx c) r (b.getLsbD (7 - c)) q) p

/-- The sprite rows from number `r` on (R162). -/
def drawRows (vx vy : Byte) : Nat → List Byte → Framebuffer × Bool → Framebuffer × Bool
  | _, [], p => p
  | r, b :: bs, p => drawRows vx vy (r + 1) bs (drawByte vx (spriteRow vy r) b p)

/-- Draw a sprite at `(vx, vy)`: the framebuffer after, and whether any cell went from set to unset (R162). -/
def drawSprite (vx vy : Byte) (bytes : List Byte) (fb : Framebuffer) : Framebuffer × Bool :=
  drawRows vx vy 0 bytes (fb, false)

/-- CLS (R161). -/
def execCls (_ign : Byte) (s : State) : Host.Outcome State Fault Refusal :=
  .next { s with fb := Framebuffer.off, dirty := true }.advance

/-- DRW Vx,Vy,n (R162): the operands are sampled before VF is touched. -/
def execDrw (x y n : Nibble) (s : State) : Host.Outcome State Fault Refusal :=
  match rangeFault (s.ea 0) n.toNat with
  | some a => .next (s.takeFatal .addressOutOfRange (encode (.drw x y n)) a)
  | none =>
    let drawn := drawSprite (s.getV x) (s.getV y) (readBlock s.mem (s.ea 0) n.toNat) s.fb
    .next { s.setV vf (flagByte drawn.2) with fb := drawn.1, dirty := true }.advance

end Sys2Proof.Machine
end

