-- ==== Sys2Proof/Machine/IndexMemory.lean ====
section
/-! DEFINITION. Index-register and memory instructions (42_index_memory.md). The three memory instructions check their whole
range before the first access (R140 (e)) and leave I unchanged (R140 (d)). -/

namespace Sys2Proof.Machine

/-- LD I,nnn (R141). -/
def execLdI (nnn : Addr12) (s : State) : Host.Outcome State Fault Refusal :=
  .next { s with idx := zext16 nnn }.advance

/-- ADD I,Vx (R142): modulo 65536, not masked to 12 bits, no flag. -/
def execAddI (x : Nibble) (s : State) : Host.Outcome State Fault Refusal :=
  .next { s with idx := s.idx + byteToWord (s.getV x) }.advance

/-- LD F,Vx (R143). -/
def execLdF (x : Nibble) (s : State) : Host.Outcome State Fault Refusal :=
  .next { s with idx := glyphAddr (s.getV x) }.advance

/-- LD B,Vx (R144). -/
def execLdB (x : Nibble) (s : State) : Host.Outcome State Fault Refusal :=
  match rangeFault (s.ea 0) 3 with
  | some a => .next (s.takeFatal .addressOutOfRange (encode (.ldB x)) a)
  | none => .next { s with mem := writeBlock s.mem (s.ea 0) (bcdDigits (s.getV x)) }.advance

/-- LD [I],Vx (R145). -/
def execLdMemVx (x : Nibble) (s : State) : Host.Outcome State Fault Refusal :=
  match rangeFault (s.ea 0) (x.toNat + 1) with
  | some a => .next (s.takeFatal .addressOutOfRange (encode (.ldMemVx x)) a)
  | none => .next { s with mem := writeBlock s.mem (s.ea 0) (s.firstRegs x) }.advance

/-- LD Vx,[I] (R146). -/
def execLdVxMem (x : Nibble) (s : State) : Host.Outcome State Fault Refusal :=
  match rangeFault (s.ea 0) (x.toNat + 1) with
  | some a => .next (s.takeFatal .addressOutOfRange (encode (.ldVxMem x)) a)
  | none => .next (s.loadRegs 0 (readBlock s.mem (s.ea 0) (x.toNat + 1))).advance

end Sys2Proof.Machine
end

