-- ==== Sys2Proof/Machine/KeysTimers.lean ====
section
/-! DEFINITION. Key and timer instructions (44_keys_timers.md). SKP and SKNP are control-flow handlers; LD Vx,K is the one
suspension point. The keys are inputs of the step (10_state.md R39, R40). -/

namespace Sys2Proof.Machine

/-- SKP Vx (R171). -/
def execSkp (x _ign : Nibble) (s : State) : Host.Outcome State Fault Refusal :=
  .next (s.jump (s.skipTarget (keyDown s.input.keys (s.getV x))))

/-- SKNP Vx (R172). -/
def execSknp (x _ign : Nibble) (s : State) : Host.Outcome State Fault Refusal :=
  .next (s.jump (s.skipTarget (!keyDown s.input.keys (s.getV x))))

/-- LD Vx,K (R173): without a key event the step is a wait step that leaves pc where it is (R200). -/
def execLdVxK (x : Nibble) (s : State) : Host.Outcome State Fault Refusal :=
  match s.input.keyEvt with
  | none => .next { s with wait := true }
  | some k => .next { s.setV x (nibbleToByte k) with wait := false }.advance

/-- LD Vx,DT (R174). -/
def execLdVxDT (x : Nibble) (s : State) : Host.Outcome State Fault Refusal :=
  .next (s.setV x s.dt).advance

/-- LD DT,Vx (R175). -/
def execLdDTVx (x : Nibble) (s : State) : Host.Outcome State Fault Refusal :=
  .next { s with dt := s.getV x }.advance

/-- LD ST,Vx (R176). -/
def execLdSTVx (x : Nibble) (s : State) : Host.Outcome State Fault Refusal :=
  .next { s with st := s.getV x }.advance

end Sys2Proof.Machine
end

