-- ==== Sys2Proof/Machine/Step.lean ====
section
/-! DEFINITION. The whole step: the order of 45_execution_loop.md R205 (Machine/Loop.lean) around the meanings, and the
placing of an instruction where the next step fetches. -/

namespace Sys2Proof.Machine

/-- One step (R205). Its inputs are `s.input`; the events it emits are left in `events`. -/
def step (s : State) : Host.Outcome State Fault Refusal := stepWith exec s

/-- `s` with the instruction of the bits `w` (numbered as spec/opcode_table.json numbers them) stored at pc, high byte first,
so that the very next step runs it; what else that takes is in `State.readyToFetch` (log entry 3). At reset that is the two
bytes and a record of an idle host. -/
def State.withFetchWord (s : State) (nbits w : Nat) : State :=
  { s.readyToFetch with
    mem := writeBlock s.mem s.fetchablePc.toNat [hiByte (tableWord nbits w), loByte (tableWord nbits w)] }

end Sys2Proof.Machine
end

