-- ==== Sys2Proof/Safety.lean ====
section
/-! DEFINITION. What counts as a safe run, and the vocabulary the statements use: how a run ends (45_execution_loop.md R206),
the invariant of the reachable states, which instructions write what, and the cells a sprite covers. -/

namespace Sys2Proof.Machine

/-! ### How a run ends -/

/-- The run is over (R206). -/
def State.runOver (s : State) : Prop := s.status = .halted

/-- The run ended normally: the only good final state (R206; 60_exceptions.md R220). -/
def State.endedNormally (s : State) : Prop := s.status = .halted ∧ s.cause = .endOfProgram

/-- The run failed with a fatal error: never a good final state (R206, R220). -/
def State.failed (s : State) : Prop := ∃ e, s.cause = .fatal e

/-- The engine is about to fetch: Running, no abort asked for, not past the end of the program (R192, R193). -/
def State.AboutToFetch (s : State) : Prop := s.status = .running ∧ s.input.abort = false ∧ s.pastEnd = false

/-! ### The invariant -/

/-- The fault record that goes with a CAUSE (10_state.md R34, 60_exceptions.md R221 to R225): cleared without a fatal error;
with one, FPC is the pc at which the engine stopped, and FADDR is an address that does not exist for AddressOutOfRange, 0
for the two stack errors. -/
def State.recordMatchesCause (s : State) : Prop :=
  match s.cause with
  | .fatal .addressOutOfRange => s.fpc = s.pc ∧ 4096 ≤ s.faddr.toNat
  | .fatal .stackOverflow => s.fpc = s.pc ∧ s.faddr = 0
  | .fatal .stackUnderflow => s.fpc = s.pc ∧ s.faddr = 0
  | _ => s.fpc = 0 ∧ s.fword = 0 ∧ s.faddr = 0

/-- What holds between steps in every state a run reaches. -/
structure State.Inv (s : State) : Prop where
  /-- Memory is in canonical form: only addresses 0 to 4095 (20_memory.md R50). -/
  mem_wf : Memory.wf s.mem = true
  /-- The stack depth never exceeds 16 (10_state.md R28). -/
  sp_le : s.sp.toNat ≤ 16
  /-- Every stack slot holds an address a CALL was fetched from, or 0 (40_control_flow.md R101). -/
  stack_le : ∀ k : Fin 16, (s.stack[k]).toNat ≤ 0xFFE
  /-- The largest pc an instruction can write (10_state.md R24). -/
  pc_le : s.pc.toNat ≤ 0x10FE
  /-- PROG_SIZE is 0 to 3584 (R36). -/
  progSize_le : s.progSize.toNat ≤ 3584
  /-- DIRTY is 0 between steps (45_execution_loop.md R204). -/
  dirty_clear : s.dirty = false
  /-- CAUSE is None exactly while Running (10_state.md R34). -/
  cause_none : s.status = .running ↔ s.cause = .none
  /-- The fault record goes with CAUSE (R34). -/
  record : s.recordMatchesCause
  /-- After EndOfProgram, pc is the value that failed the test (R206). -/
  ended : s.cause = .endOfProgram → s.pastEnd = true
  /-- While WAIT = 1, pc holds the address of a LD Vx,K (10_state.md R35). -/
  wait_at_key : s.wait = true → ∃ w x, s.fetch = .ok w ∧ decode w = .ok (.ldVxK x)

end Sys2Proof.Machine

namespace Sys2Proof

open Machine

/-! ### Which instructions write what -/

/-- The control-flow handlers, which write pc themselves (45_execution_loop.md R198). -/
def Instr.isControlFlow : Instr → Bool
  | .ret _ | .jp _ | .call _ | .seImm _ _ | .sneImm _ _ | .seReg _ _ _ | .sneReg _ _ _ | .jpV0 _ | .skp _ _ | .sknp _ _ => true
  | .cls _ | .ldImm _ _ | .addImm _ _ | .ldReg _ _ | .orReg _ _ | .andReg _ _ | .xorReg _ _ | .addReg _ _ | .subReg _ _ => false
  | .shr _ _ | .subnReg _ _ | .shl _ _ | .ldI _ | .rnd _ _ | .drw _ _ _ | .ldVxDT _ | .ldVxK _ | .ldDTVx _ | .ldSTVx _ => false
  | .addI _ | .ldF _ | .ldB _ | .ldMemVx _ | .ldVxMem _ => false

/-- The six instructions that write VF as a flag (10_state.md R21). -/
def Instr.writesFlag : Instr → Bool
  | .addReg _ _ | .subReg _ _ | .subnReg _ _ | .shr _ _ | .shl _ _ | .drw _ _ _ => true
  | .cls _ | .ret _ | .jp _ | .call _ | .seImm _ _ | .sneImm _ _ | .seReg _ _ _ | .sneReg _ _ _ | .jpV0 _ => false
  | .ldImm _ _ | .addImm _ _ | .ldReg _ _ | .orReg _ _ | .andReg _ _ | .xorReg _ _ | .ldI _ | .rnd _ _ | .skp _ _ => false
  | .sknp _ _ | .ldVxDT _ | .ldVxK _ | .ldDTVx _ | .ldSTVx _ | .addI _ | .ldF _ | .ldB _ | .ldMemVx _ | .ldVxMem _ => false

/-- Whether register `r` is a destination the instruction names: its `x`, or one of V0 to Vx for the register load
(10_state.md R20, R21). -/
def Instr.hasDest (i : Instr) (r : Nibble) : Bool :=
  match i with
  | .ldImm x _ | .addImm x _ | .ldReg x _ | .orReg x _ | .andReg x _ | .xorReg x _ | .addReg x _ | .subReg x _ => r == x
  | .shr x _ | .subnReg x _ | .shl x _ | .rnd x _ | .ldVxDT x | .ldVxK x => r == x
  | .ldVxMem x => decide (r.toNat ≤ x.toNat)
  | .cls _ | .ret _ | .jp _ | .call _ | .seImm _ _ | .sneImm _ _ | .seReg _ _ _ | .sneReg _ _ _ | .jpV0 _ => false
  | .ldI _ | .drw _ _ _ | .skp _ _ | .sknp _ _ | .ldDTVx _ | .ldSTVx _ | .addI _ | .ldF _ | .ldB _ | .ldMemVx _ => false

/-- The fatal error an instruction raises in a state, with the address it reports; none if it runs (60_exceptions.md R221
to R223). -/
def Instr.raises (i : Instr) (s : State) : Option (FatalError × Nat) :=
  match i with
  | .call _ => if s.sp.toNat = 16 then some (.stackOverflow, 0) else none
  | .ret _ => if s.sp.toNat = 0 then some (.stackUnderflow, 0) else none
  | .ldB _ => if 4096 ≤ s.idx.toNat + 2 then some (.addressOutOfRange, max s.idx.toNat 4096) else none
  | .ldMemVx x => if 4096 ≤ s.idx.toNat + x.toNat then some (.addressOutOfRange, max s.idx.toNat 4096) else none
  | .ldVxMem x => if 4096 ≤ s.idx.toNat + x.toNat then some (.addressOutOfRange, max s.idx.toNat 4096) else none
  | .drw _ _ n =>
    if 0 < n.toNat ∧ 4096 ≤ s.idx.toNat + n.toNat - 1 then some (.addressOutOfRange, max s.idx.toNat 4096) else none
  | .cls _ | .jp _ | .seImm _ _ | .sneImm _ _ | .seReg _ _ _ | .sneReg _ _ _ | .jpV0 _ | .skp _ _ | .sknp _ _ => none
  | .ldImm _ _ | .addImm _ _ | .ldReg _ _ | .orReg _ _ | .andReg _ _ | .xorReg _ _ | .addReg _ _ | .subReg _ _ => none
  | .shr _ _ | .subnReg _ _ | .shl _ _ | .ldI _ | .rnd _ _ | .ldVxDT _ | .ldVxK _ | .ldDTVx _ | .ldSTVx _ | .addI _ | .ldF _ => none

end Sys2Proof

namespace Sys2Proof.Machine

/-! ### Encodings and sprites -/

/-- Every word that a mask and a match of 30_encoding.md R83 select decodes to the instruction built from its fields. -/
def EncodedAs (mask pattern : Word) (build : Word → Instr) : Prop :=
  ∀ w : Word, w &&& mask = pattern → decode w = .ok (build w)

/-- DRW Vx,Vy,n in state `s` puts a sprite bit of 1 on the cell at column `c`, row `r` (43_display.md R162): row `j` of the
sprite is the byte at I + j, its column `k` is bit 7 - k. -/
def State.SpriteCovers (s : State) (x y n : Nibble) (c : Fin 64) (r : Fin 32) : Prop :=
  ∃ j k : Nat, j < n.toNat ∧ k < 8 ∧ ((s.getV x).toNat + k) % 64 = c.val ∧ ((s.getV y).toNat + j) % 32 = r.val ∧
    (s.readByte (s.idx.toNat + j)).getLsbD (7 - k) = true

/-- The cell FB[c, r] of a state. -/
def State.cell (s : State) (c : Fin 64) (r : Fin 32) : Bool := Framebuffer.cell s.fb c r

end Sys2Proof.Machine
end

