-- ==== Sys2Proof/Certificates/Slice0/Obligations.lean ====
section
/-! DEFINITION. The statements about the engine. Each docstring names the rule of spec/ it formalises; where a clause rests on a
decision of the spec (92_eei_decisions.md D<n>), on general knowledge it marks (93_implementation_defined.md G<n>) or on a log
entry of the model, it says so. -/

open Sys2Proof Sys2Proof.Machine

/-! ### Encoding -/

/-- Decoding the encoding of any instruction gives it back, with every operand and every ignored bit at every value. The opcode
values are those of R76 (general knowledge G1). -/
def Obligations.DecodeEncodeRoundTrip : Prop :=
  ∀ i : Instr, decode (encode i) = .ok i

/-- The other direction: the encoding of the instruction that a word decodes to is that word, so no two words are one
instruction. (The instruction keeps the ignored bits: log entry 5.) -/
def Obligations.EncodeDecodeRoundTrip : Prop :=
  ∀ (w : Word) (i : Instr), decode w = .ok i → encode i = w

/-- The decoder, written after the dispatch of R74, agrees with the decode table of R83 (34 rows): a word in a row decodes to
that row's instruction, and a word in no row is unknown (R84). The masks are those of D7, the values general knowledge G1. -/
def Obligations.DecodeFollowsOpcodeTable : Prop :=
  opcodeTable.length = 34 ∧
  ∀ w : Word,
    (∀ r ∈ opcodeTable, w &&& r.mask = r.pattern → decode w = .ok (r.build w)) ∧
    ((∀ r ∈ opcodeTable, w &&& r.mask ≠ r.pattern) → decode w = .error (.unknownOpcode w))

/-- Words written out from the table of R83, and the byte order of the fetch (R54). The opcode values are general knowledge G1; that
ignored bits take no part in the choice of the row is decision D7; that the instruction keeps them (`.ret 0xAB`, `.seReg 1 2 0xF`,
`.shr 0xA 0xB`, the last operand of the key skips) is the model's choice, log entry 5. -/
def Obligations.SpecWordsDecode : Prop :=
  decode 0x00E0 = .ok (.cls 0x0E) ∧ decode 0x0ABE = .ok (.ret 0xAB) ∧ decode 0x1ABC = .ok (.jp 0xABC) ∧
  decode 0x512F = .ok (.seReg 1 2 0xF) ∧ decode 0x8AB6 = .ok (.shr 0xA 0xB) ∧ decode 0x8AB7 = .ok (.subnReg 0xA 0xB) ∧
  decode 0x8AB9 = .error (.unknownOpcode 0x8AB9) ∧ decode 0xD123 = .ok (.drw 1 2 3) ∧
  decode 0xE49E = .ok (.skp 4 9) ∧ decode 0xE4A1 = .ok (.sknp 4 0xA) ∧ decode 0xF30A = .ok (.ldVxK 3) ∧
  decode 0xF233 = .ok (.ldB 2) ∧ decode 0xF055 = .ok (.ldMemVx 0) ∧ decode 0xF0FF = .error (.unknownOpcode 0xF0FF) ∧
  decodeBytes [0x22, 0x0A, 0xFF] = .ok (.call 0x20A, [0xFF])

/-- R71: the fields of the word of two bytes; they overlap as `nn = y * 16 + n`, `nnn = x * 256 + nn`, and in terms of the
bytes the first is `op * 16 + x` and the second `y * 16 + n = nn`. -/
def Obligations.FieldsOfTheWord : Prop :=
  ∀ (hi lo : Byte) (w : Word), w = wordOfBytes hi lo →
    w.toNat = hi.toNat * 256 + lo.toNat ∧
    (opField w).toNat = w.toNat / 4096 ∧ (xField w).toNat = w.toNat / 256 % 16 ∧
    (yField w).toNat = w.toNat / 16 % 16 ∧ (nField w).toNat = w.toNat % 16 ∧
    (nnField w).toNat = (yField w).toNat * 16 + (nField w).toNat ∧
    (nnnField w).toNat = (xField w).toNat * 256 + (nnField w).toNat ∧
    hi.toNat = (opField w).toNat * 16 + (xField w).toNat ∧ lo = nnField w

/-! ### Memory -/

/-- R52: `MemRead(addr, 1)` gives the cell or fails with the address; `MemRead(addr, 2)` is two such reads, high byte first,
and fails with the address of the first that fails. -/
def Obligations.MemReadContract : Prop :=
  ∀ (m : Memory) (a : Nat),
    (a < 4096 → memRead1 m a = .ok (Memory.peek m a)) ∧ (4096 ≤ a → memRead1 m a = .error a) ∧
    (a + 1 < 4096 → ∃ w, memRead2 m a = .ok w ∧ w.toNat = (Memory.peek m a).toNat * 256 + (Memory.peek m (a + 1)).toNat) ∧
    (a = 4095 → memRead2 m a = .error 4096) ∧ (4096 ≤ a → memRead2 m a = .error a)

/-- R53: `MemWrite(addr, 1, v)` fails with an address outside memory, and else changes exactly one cell; the canonical form of
memory stays. -/
def Obligations.MemWriteContract : Prop :=
  ∀ (m : Memory) (a : Nat) (v : Byte), Memory.wf m = true →
    (4096 ≤ a → memWrite1 m a v = .error a) ∧
    (a < 4096 → ∃ m', memWrite1 m a v = .ok m' ∧ Memory.wf m' = true ∧ Memory.peek m' a = v ∧
      ∀ b, b ≠ a → Memory.peek m' b = Memory.peek m b)

/-! ### Control flow -/

/-- R102: JP nnn sets pc exactly to `nnn`; nothing else changes. The opcode values are the
rules' own, which the spec marks general knowledge (G1, log entry 10). -/
def Obligations.JumpSetsPcExactly : Prop :=
  EncodedAs 0xF000 0x1000 (fun w => .jp (nnnField w)) ∧
  ∀ (nnn : Addr12) (s : State), ∃ t, exec (.jp nnn) s = .next t ∧ t = { s with pc := t.pc } ∧ t.pc.toNat = nnn.toNat

/-- R108: JP V0,nnn sets pc to `nnn + V[0]`, not reduced to 12 bits; nothing else changes. -/
def Obligations.ComputedJumpAddsV0 : Prop :=
  ∀ (nnn : Addr12) (s : State), ∃ t, exec (.jpV0 nnn) s = .next t ∧ t = { s with pc := t.pc } ∧
    t.pc.toNat = nnn.toNat + (s.getV 0).toNat

/-- R103: CALL pushes the address of the CALL itself (decision D9), counts SP up and jumps; with a full stack it is the fatal
error StackOverflow (R222) and nothing else changes. -/
def Obligations.CallPushesOrOverflows : Prop :=
  ∀ (nnn : Addr12) (s : State),
    (s.sp.toNat < 16 → ∃ t, exec (.call nnn) s = .next t ∧ t = { s with pc := t.pc, sp := t.sp, stack := t.stack } ∧
      t.pc.toNat = nnn.toNat ∧ t.sp.toNat = s.sp.toNat + 1 ∧
      ∀ k : Fin 16, t.stack[k] = if k.val = s.sp.toNat then s.pc else s.stack[k]) ∧
    (s.sp.toNat = 16 → exec (.call nnn) s = .next (s.takeFatal .stackOverflow (encode (.call nnn)) 0))

/-- R101: RET pops the address of a CALL and goes on 2 after it (decision D9); the popped slot keeps its value; with an empty
stack it is the fatal error StackUnderflow (R223). -/
def Obligations.ReturnPopsOrUnderflows : Prop :=
  ∀ (ign : Byte) (s : State),
    (∀ (k : Fin 16), s.sp.toNat = k.val + 1 → ∃ t, exec (.ret ign) s = .next t ∧ t = { s with pc := t.pc, sp := t.sp } ∧
      t.pc = s.stack[k] + 2 ∧ t.sp.toNat = k.val) ∧
    (s.sp.toNat = 0 → exec (.ret ign) s = .next (s.takeFatal .stackUnderflow (encode (.ret ign)) 0))

/-- R109: a CALL followed at once by a RET leaves SP as it was and pc after the CALL, the call's address left behind in the
free slot, and no other state changed (conflict C1, decision D9). -/
def Obligations.CallReturnRoundTrip : Prop :=
  ∀ (nnn : Addr12) (ign : Byte) (s : State), (h : s.sp.toNat < 16) →
    ∃ t u, exec (.call nnn) s = .next t ∧ exec (.ret ign) t = .next u ∧
      u = { s with pc := s.pc + 2, stack := s.stack.set s.sp.toNat s.pc h }

/-- R104, R105: the skips on a literal write `pc0 + 4` or `pc0 + 2`; nothing else changes. The opcode values are the
rules' own, which the spec marks general knowledge (G1, log entry 10). -/
def Obligations.LiteralSkips : Prop :=
  EncodedAs 0xF000 0x3000 (fun w => .seImm (xField w) (nnField w)) ∧
  EncodedAs 0xF000 0x4000 (fun w => .sneImm (xField w) (nnField w)) ∧
  ∀ (x : Nibble) (nn : Byte) (s : State),
    exec (.seImm x nn) s = .next { s with pc := if s.getV x = nn then s.pc + 4 else s.pc + 2 } ∧
    exec (.sneImm x nn) s = .next { s with pc := if s.getV x ≠ nn then s.pc + 4 else s.pc + 2 }

/-- R106, R107: the skips on two registers, for every value of the ignored nibble (decision D7); `x = y` always skips in SE and
never in SNE. -/
def Obligations.RegisterSkips : Prop :=
  ∀ (x y ign : Nibble) (s : State),
    exec (.seReg x y ign) s = .next { s with pc := if s.getV x = s.getV y then s.pc + 4 else s.pc + 2 } ∧
    exec (.sneReg x y ign) s = .next { s with pc := if s.getV x ≠ s.getV y then s.pc + 4 else s.pc + 2 }

/-! ### Registers and arithmetic -/

/-- R121, R122: load and add a literal; the sum wraps modulo 256, and no flag is written: every register but Vx stays. The opcode values are the
rules' own, which the spec marks general knowledge (G1, log entry 10). -/
def Obligations.LiteralLoadAndAdd : Prop :=
  EncodedAs 0xF000 0x6000 (fun w => .ldImm (xField w) (nnField w)) ∧
  EncodedAs 0xF000 0x7000 (fun w => .addImm (xField w) (nnField w)) ∧
  ∀ (x : Nibble) (nn : Byte) (s : State),
    (∃ t, exec (.ldImm x nn) s = .next t ∧ t = { s with v := t.v, pc := s.pc + 2 } ∧
      t.getV x = nn ∧ ∀ r, r ≠ x → t.getV r = s.getV r) ∧
    (∃ t, exec (.addImm x nn) s = .next t ∧ t = { s with v := t.v, pc := s.pc + 2 } ∧
      (t.getV x).toNat = ((s.getV x).toNat + nn.toNat) % 256 ∧ ∀ r, r ≠ x → t.getV r = s.getV r)

/-- R123 to R126: copy, OR, AND, XOR; bit by bit, and no flag is written: every register but Vx stays. The opcode values are the
rules' own, which the spec marks general knowledge (G1, log entry 10). -/
def Obligations.CopyAndLogic : Prop :=
  EncodedAs 0xF00F 0x8000 (fun w => .ldReg (xField w) (yField w)) ∧
  EncodedAs 0xF00F 0x8001 (fun w => .orReg (xField w) (yField w)) ∧
  EncodedAs 0xF00F 0x8002 (fun w => .andReg (xField w) (yField w)) ∧
  EncodedAs 0xF00F 0x8003 (fun w => .xorReg (xField w) (yField w)) ∧
  ∀ (x y : Nibble) (s : State),
    (∃ t, exec (.ldReg x y) s = .next t ∧ t = { s with v := t.v, pc := s.pc + 2 } ∧
      t.getV x = s.getV y ∧ ∀ r, r ≠ x → t.getV r = s.getV r) ∧
    (∃ t, exec (.orReg x y) s = .next t ∧ t = { s with v := t.v, pc := s.pc + 2 } ∧
      (∀ b < 8, (t.getV x).getLsbD b = ((s.getV x).getLsbD b || (s.getV y).getLsbD b)) ∧
      ∀ r, r ≠ x → t.getV r = s.getV r) ∧
    (∃ t, exec (.andReg x y) s = .next t ∧ t = { s with v := t.v, pc := s.pc + 2 } ∧
      (∀ b < 8, (t.getV x).getLsbD b = ((s.getV x).getLsbD b && (s.getV y).getLsbD b)) ∧
      ∀ r, r ≠ x → t.getV r = s.getV r) ∧
    (∃ t, exec (.xorReg x y) s = .next t ∧ t = { s with v := t.v, pc := s.pc + 2 } ∧
      (∀ b < 8, (t.getV x).getLsbD b = ((s.getV x).getLsbD b ^^ (s.getV y).getLsbD b)) ∧
      ∀ r, r ≠ x → t.getV r = s.getV r)

/-- R127 to R129: the sum and the two differences modulo 256; VF is 1 for a carry, and for the differences 1 for no borrow.
With `x = 0xF` the result stays in VF and the flag is lost (decision D12 of the spec). -/
def Obligations.AddAndSubtractWithFlag : Prop :=
  ∀ (x y : Nibble) (s : State),
    (∃ t, exec (.addReg x y) s = .next t ∧ t = { s with v := t.v, pc := s.pc + 2 } ∧
      (t.getV x).toNat = ((s.getV x).toNat + (s.getV y).toNat) % 256 ∧
      (x ≠ vf → t.getV vf = if 255 < (s.getV x).toNat + (s.getV y).toNat then 1 else 0) ∧
      ∀ r, r ≠ x → r ≠ vf → t.getV r = s.getV r) ∧
    (∃ t, exec (.subReg x y) s = .next t ∧ t = { s with v := t.v, pc := s.pc + 2 } ∧
      (t.getV x).toNat = ((s.getV x).toNat + 256 - (s.getV y).toNat) % 256 ∧
      (x ≠ vf → t.getV vf = if (s.getV y).toNat ≤ (s.getV x).toNat then 1 else 0) ∧
      ∀ r, r ≠ x → r ≠ vf → t.getV r = s.getV r) ∧
    (∃ t, exec (.subnReg x y) s = .next t ∧ t = { s with v := t.v, pc := s.pc + 2 } ∧
      (t.getV x).toNat = ((s.getV y).toNat + 256 - (s.getV x).toNat) % 256 ∧
      (x ≠ vf → t.getV vf = if (s.getV x).toNat ≤ (s.getV y).toNat then 1 else 0) ∧
      ∀ r, r ≠ x → r ≠ vf → t.getV r = s.getV r)

/-- R130, R131: the shifts by one, in place on Vx, whatever `y` is (decision D13); VF gets the bit shifted out. With `x = 0xF`
the result stays in VF (decision D12). -/
def Obligations.ShiftsByOne : Prop :=
  ∀ (x y : Nibble) (s : State),
    (∃ t, exec (.shr x y) s = .next t ∧ t = { s with v := t.v, pc := s.pc + 2 } ∧
      (t.getV x).toNat = (s.getV x).toNat / 2 ∧ (x ≠ vf → (t.getV vf).toNat = (s.getV x).toNat % 2) ∧
      ∀ r, r ≠ x → r ≠ vf → t.getV r = s.getV r) ∧
    (∃ t, exec (.shl x y) s = .next t ∧ t = { s with v := t.v, pc := s.pc + 2 } ∧
      (t.getV x).toNat = (s.getV x).toNat * 2 % 256 ∧ (x ≠ vf → (t.getV vf).toNat = (s.getV x).toNat / 128) ∧
      ∀ r, r ≠ x → r ≠ vf → t.getV r = s.getV r)

/-- R132: RND stores the random byte of the step ANDed with `nn`, whatever that byte is (it is a free input: decision D23, log
entry 1); no bit is set that `nn` has clear. -/
def Obligations.RandomAnd : Prop :=
  ∀ (x : Nibble) (nn : Byte) (s : State),
    ∃ t, exec (.rnd x nn) s = .next t ∧ t = { s with v := t.v, pc := s.pc + 2 } ∧
      (∀ b < 8, (t.getV x).getLsbD b = (s.input.rnd.getLsbD b && nn.getLsbD b)) ∧
      ∀ r, r ≠ x → t.getV r = s.getV r

/-! ### Index register and memory -/

/-- R141: LD I,nnn. The opcode values are the
rules' own, which the spec marks general knowledge (G1, log entry 10). -/
def Obligations.IndexLoad : Prop :=
  EncodedAs 0xF000 0xA000 (fun w => .ldI (nnnField w)) ∧
  ∀ (nnn : Addr12) (s : State),
    ∃ t, exec (.ldI nnn) s = .next t ∧ t = { s with idx := t.idx, pc := s.pc + 2 } ∧ t.idx.toNat = nnn.toNat

/-- R142, R143: ADD I,Vx modulo 65536, with no mask to 12 bits (decision D11); LD F,Vx is five times the whole value (decision
D35). Neither writes a flag or any register. -/
def Obligations.IndexArithmetic : Prop :=
  ∀ (x : Nibble) (s : State),
    (∃ t, exec (.addI x) s = .next t ∧ t = { s with idx := t.idx, pc := s.pc + 2 } ∧
      t.idx.toNat = (s.idx.toNat + (s.getV x).toNat) % 65536) ∧
    (∃ t, exec (.ldF x) s = .next t ∧ t = { s with idx := t.idx, pc := s.pc + 2 } ∧ t.idx.toNat = (s.getV x).toNat * 5)

/-- R144: LD B,Vx writes the hundreds, tens and ones digit at I, I + 1, I + 2, where these are addresses of memory, and no other
byte; I and the registers stay. -/
def Obligations.BcdStoresDigits : Prop :=
  ∀ (x : Nibble) (s : State), Memory.wf s.mem = true → s.idx.toNat + 2 < 4096 →
    ∃ t, exec (.ldB x) s = .next t ∧ t = { s with mem := t.mem, pc := s.pc + 2 } ∧
      (t.readByte s.idx.toNat).toNat = (s.getV x).toNat / 100 ∧
      (t.readByte (s.idx.toNat + 1)).toNat = (s.getV x).toNat / 10 % 10 ∧
      (t.readByte (s.idx.toNat + 2)).toNat = (s.getV x).toNat % 10 ∧
      ∀ a, (a < s.idx.toNat ∨ s.idx.toNat + 2 < a) → t.readByte a = s.readByte a

/-- R145: LD [I],Vx writes V0 to Vx at I to I + x, where these are addresses of memory, and no other byte; I stays (decision
D14), and so do the registers. -/
def Obligations.RegisterDump : Prop :=
  ∀ (x : Nibble) (s : State), Memory.wf s.mem = true → s.idx.toNat + x.toNat < 4096 →
    ∃ t, exec (.ldMemVx x) s = .next t ∧ t = { s with mem := t.mem, pc := s.pc + 2 } ∧
      (∀ r : Nibble, r.toNat ≤ x.toNat → t.readByte (s.idx.toNat + r.toNat) = s.getV r) ∧
      ∀ a, (a < s.idx.toNat ∨ s.idx.toNat + x.toNat < a) → t.readByte a = s.readByte a

/-- R146: LD Vx,[I] loads V0 to Vx from I to I + x, where these are addresses of memory; the registers above Vx, I (decision D14)
and memory stay. -/
def Obligations.RegisterLoad : Prop :=
  ∀ (x : Nibble) (s : State), s.idx.toNat + x.toNat < 4096 →
    ∃ t, exec (.ldVxMem x) s = .next t ∧ t = { s with v := t.v, pc := s.pc + 2 } ∧
      ∀ r : Nibble, t.getV r = if r.toNat ≤ x.toNat then s.readByte (s.idx.toNat + r.toNat) else s.getV r

/-- R146, from the source: dumping V0 to Vx and loading them again from the same memory at the same I, whatever happened to the
registers between, gives back the values of the dump. -/
def Obligations.DumpLoadRoundTrip : Prop :=
  ∀ (x : Nibble) (s u : State), Memory.wf s.mem = true → s.idx.toNat + x.toNat < 4096 →
    ∃ t, exec (.ldMemVx x) s = .next t ∧
      (u.mem = t.mem → u.idx = t.idx → ∃ z, exec (.ldVxMem x) u = .next z ∧
        ∀ r : Nibble, r.toNat ≤ x.toNat → z.getV r = s.getV r)

/-- R63: a store into the instruction stream is seen by the very next fetch: after LD [I],Vx over the two bytes that follow it,
the next word is V0 * 256 + V1. -/
def Obligations.StoreSeenByNextFetch : Prop :=
  ∀ (x : Nibble) (s : State), Memory.wf s.mem = true → 1 ≤ x.toNat → s.idx.toNat = s.pc.toNat + 2 →
    s.idx.toNat + x.toNat < 4096 →
    ∃ t w, exec (.ldMemVx x) s = .next t ∧ t.fetch = .ok w ∧ w.toNat = (s.getV 0).toNat * 256 + (s.getV 1).toNat

/-! ### Display -/

/-- R161: CLS sets every cell to off and DIRTY to 1, for every value of the ignored bits (decision D7); nothing else changes. -/
def Obligations.ClearScreen : Prop :=
  ∀ (ign : Byte) (s : State),
    ∃ t, exec (.cls ign) s = .next t ∧ t = { s with fb := t.fb, dirty := true, pc := s.pc + 2 } ∧ ∀ c r, t.cell c r = false

/-- R162: DRW complements exactly the cells under a sprite bit of 1 (bit 7 leftmost: G3, decision D17), wrapping at the edges; VF
is 1 when one of them was set, else 0, and the coordinates are those before VF is written (decision D12); DIRTY is set; no
other register and no memory changes. `n = 0` draws nothing, for any I. -/
def Obligations.DrawXorsSprite : Prop :=
  ∀ (x y n : Nibble) (s : State), (n = 0 ∨ s.idx.toNat + n.toNat ≤ 4096) →
    ∃ t, exec (.drw x y n) s = .next t ∧ t = { s with v := t.v, fb := t.fb, dirty := true, pc := s.pc + 2 } ∧
      (∀ c r, s.SpriteCovers x y n c r → t.cell c r = !s.cell c r) ∧
      (∀ c r, ¬ s.SpriteCovers x y n c r → t.cell c r = s.cell c r) ∧
      ((∃ c r, s.SpriteCovers x y n c r ∧ s.cell c r = true) → t.getV vf = 1) ∧
      ((¬ ∃ c r, s.SpriteCovers x y n c r ∧ s.cell c r = true) → t.getV vf = 0) ∧
      ∀ r, r ≠ vf → t.getV r = s.getV r

/-- R163: drawing the same sprite at the same place a second time restores the framebuffer exactly; VF after the second draw is
1 exactly when some cell under a sprite bit of 1 was off before the first. `u` is any state with the first draw's picture and
the same operands, index and sprite bytes. -/
def Obligations.DrawTwiceRestores : Prop :=
  ∀ (x y n : Nibble) (s u : State), (n = 0 ∨ s.idx.toNat + n.toNat ≤ 4096) →
    ∃ t, exec (.drw x y n) s = .next t ∧
      (u.fb = t.fb → u.idx = s.idx → u.getV x = s.getV x → u.getV y = s.getV y →
        (∀ j, j < n.toNat → u.readByte (u.idx.toNat + j) = s.readByte (s.idx.toNat + j)) →
        ∃ z, exec (.drw x y n) u = .next z ∧ z.fb = s.fb ∧
          (z.getV vf = 1 ↔ ∃ c r, s.SpriteCovers x y n c r ∧ s.cell c r = false))

/-! ### Keys and timers -/

/-- R171, R172: the key skips read the sampled key level that Vx names; a value of 16 or more is a key that is never down
(decision D15); for every value of the ignored nibble (decision D7). -/
def Obligations.KeySkips : Prop :=
  ∀ (x ign : Nibble) (s : State),
    exec (.skp x ign) s = .next { s with
      pc := if (s.getV x).toNat < 16 ∧ s.input.keys.getLsbD (s.getV x).toNat = true then s.pc + 4 else s.pc + 2 } ∧
    exec (.sknp x ign) s = .next { s with
      pc := if (s.getV x).toNat < 16 ∧ s.input.keys.getLsbD (s.getV x).toNat = true then s.pc + 2 else s.pc + 4 }

/-- R173: LD Vx,K without a key event only sets WAIT and leaves pc; with one it stores the key's index, clears WAIT and goes on.
The unrolling of the blocking wait into steps is decision D16. -/
def Obligations.AwaitKey : Prop :=
  ∀ (x : Nibble) (s : State),
    (s.input.keyEvt = none → exec (.ldVxK x) s = .next { s with wait := true }) ∧
    (∀ k, s.input.keyEvt = some k → ∃ t, exec (.ldVxK x) s = .next t ∧
      t = { s with v := t.v, wait := false, pc := s.pc + 2 } ∧ (t.getV x).toNat = k.toNat ∧
      ∀ r, r ≠ x → t.getV r = s.getV r)

/-- R174 to R176: the timer moves. The level SOUND_ON follows ST (R31, decision D25). The opcode values are the
rules' own, which the spec marks general knowledge (G1, log entry 10). -/
def Obligations.TimerMoves : Prop :=
  EncodedAs 0xF0FF 0xF007 (fun w => .ldVxDT (xField w)) ∧
  EncodedAs 0xF0FF 0xF015 (fun w => .ldDTVx (xField w)) ∧
  EncodedAs 0xF0FF 0xF018 (fun w => .ldSTVx (xField w)) ∧
  ∀ (x : Nibble) (s : State),
    (∃ t, exec (.ldVxDT x) s = .next t ∧ t = { s with v := t.v, pc := s.pc + 2 } ∧ t.getV x = s.dt ∧
      ∀ r, r ≠ x → t.getV r = s.getV r) ∧
    exec (.ldDTVx x) s = .next { s with dt := s.getV x, pc := s.pc + 2 } ∧
    (∃ t, exec (.ldSTVx x) s = .next t ∧ t = { s with st := s.getV x, pc := s.pc + 2 } ∧
      (t.soundOn = true ↔ t.st.toNat ≠ 0))

/-- R235: one tick lowers each timer by one if it is not zero, and changes nothing else. -/
def Obligations.TickLowersTimers : Prop :=
  ∀ s : State, ∃ t, s.tick = t ∧ t = { s with dt := t.dt, st := t.st } ∧
    t.dt.toNat = (if 0 < s.dt.toNat then s.dt.toNat - 1 else s.dt.toNat) ∧
    t.st.toNat = (if 0 < s.st.toNat then s.st.toNat - 1 else s.st.toNat)

/-- R32, R236 (b): any number of ticks lowers a timer by exactly that number, stopping at 0, each timer on its own. -/
def Obligations.TicksSaturateAtZero : Prop :=
  ∀ (n : Nat) (s : State), ∃ t, State.ticks n s = t ∧ t = { s with dt := t.dt, st := t.st } ∧
    t.dt.toNat = s.dt.toNat - n ∧ t.st.toNat = s.st.toNat - n

/-! ### Errors -/

/-- R225: what taking a fatal error writes: STATUS, CAUSE, FPC, FWORD, FADDR and the event; pc, SP and all else stay. -/
def Obligations.FatalErrorRecord : Prop :=
  ∀ (s : State) (e : FatalError) (w : Word) (a : Nat), a < 2 ^ 17 →
    ∃ t, s.takeFatal e w a = t ∧
      t = { s with status := .halted, cause := .fatal e, fpc := s.pc, fword := w, faddr := t.faddr, events := t.events } ∧
      t.faddr.toNat = a ∧ t.events = s.events ++ [.fatal e s.pc w t.faddr]

/-- R221 to R223, R229: an instruction raises its error exactly on the states the rules name (`Instr.raises`), with the whole
range checked before anything is done (decision D18): the state is that of the head of the instruction but for the record of
R225, FWORD is the instruction's word and FADDR the lowest address that does not exist. On every other state with a legal SP
it answers a next state whose STATUS and CAUSE are as before. -/
def Obligations.FatalErrorsArePrecise : Prop :=
  ∀ (i : Instr) (s : State), s.sp.toNat ≤ 16 →
    (∀ e a, i.raises s = some (e, a) → exec i s = .next (s.takeFatal e (encode i) a)) ∧
    (i.raises s = none → ∃ t, exec i s = .next t ∧ t.status = s.status ∧ t.cause = s.cause ∧ t.fpc = s.fpc ∧
      t.fword = s.fword ∧ t.faddr = s.faddr ∧ t.events = s.events)

/-! ### What instructions write, over all instructions -/

/-- R21: VF changes only by one of the six flag-writing instructions or by an instruction that names it as its destination; a
flag value that one of the six leaves in a VF it does not name as destination is exactly 0 or 1; VF resets to 0. -/
def Obligations.VfIsWrittenOnlyAsFlagOrDestination : Prop :=
  (∀ (i : Instr) (s t : State), exec i s = .next t → i.writesFlag = false → i.hasDest vf = false → t.getV vf = s.getV vf) ∧
  (∀ (i : Instr) (s t : State), exec i s = .next t → i.raises s = none → i.writesFlag = true → i.hasDest vf = false →
    t.getV vf = 0 ∨ t.getV vf = 1) ∧
  State.reset.getV vf = 0

/-- R20, R120 (c), R140, R162: a register other than VF changes only if the instruction names it as a destination. -/
def Obligations.RegistersChangeOnlyAsDestination : Prop :=
  ∀ (i : Instr) (s t : State) (r : Nibble), exec i s = .next t → r ≠ vf → i.hasDest r = false → t.getV r = s.getV r

/-- R25 to R27, R30, R31, R35 to R38, R50: which instructions write the other state. SP only CALL and RET, the stack only CALL, I
only LD I, ADD I and LD F, DT only LD DT,Vx, ST only LD ST,Vx, WAIT only LD Vx,K, the framebuffer and DIRTY only CLS and DRW,
memory only LD B and LD [I],Vx; PROG_SIZE and the host's inputs none. -/
def Obligations.EachStateHasItsWriters : Prop :=
  ∀ (i : Instr) (s t : State), exec i s = .next t →
    (t.sp ≠ s.sp → (∃ nnn, i = .call nnn) ∨ ∃ ign, i = .ret ign) ∧
    (t.stack ≠ s.stack → ∃ nnn, i = .call nnn) ∧
    (t.idx ≠ s.idx → (∃ nnn, i = .ldI nnn) ∨ (∃ x, i = .addI x) ∨ ∃ x, i = .ldF x) ∧
    (t.dt ≠ s.dt → ∃ x, i = .ldDTVx x) ∧
    (t.st ≠ s.st → ∃ x, i = .ldSTVx x) ∧
    (t.wait ≠ s.wait → ∃ x, i = .ldVxK x) ∧
    (t.fb ≠ s.fb ∨ t.dirty ≠ s.dirty → (∃ ign, i = .cls ign) ∨ ∃ x y n, i = .drw x y n) ∧
    (t.mem ≠ s.mem → (∃ x, i = .ldB x) ∨ ∃ x, i = .ldMemVx x) ∧
    t.progSize = s.progSize ∧ t.inputs = s.inputs ∧ t.seq = s.seq

/-- R198, R23: after an instruction that is not a control-flow handler pc is `pc0 + 2`, but for a LD Vx,K that did not complete
and for a fatal error, which leave it; control-flow handlers write it themselves (their own statements say to what). -/
def Obligations.IncrementStep : Prop :=
  ∀ (i : Instr) (s t : State), s.status = .running → exec i s = .next t →
    (t.status = .halted → t.pc = s.pc) ∧
    (t.status = .running → i.isControlFlow = false →
      t.pc = s.pc + 2 ∨ ((∃ x, i = .ldVxK x) ∧ t.wait = true ∧ t.pc = s.pc))

/-- R190, R231: of the host's inputs only RND reads the random byte, only SKP and SKNP the key levels, only LD Vx,K the key
event: no other instruction's effect depends on any of them, and each of these depends on its own input alone. -/
def Obligations.InputsAreReadOnlyByTheirInstructions : Prop :=
  ∀ (i : Instr) (s t : State) (inps : List StepInput) (q : Nat), exec i s = .next t →
    ((∃ x nn, i = .rnd x nn) → ({ s with inputs := inps, seq := q } : State).input.rnd = s.input.rnd) →
    ((∃ x ign, i = .skp x ign ∨ i = .sknp x ign) → ({ s with inputs := inps, seq := q } : State).input.keys = s.input.keys) →
    ((∃ x, i = .ldVxK x) → ({ s with inputs := inps, seq := q } : State).input.keyEvt = s.input.keyEvt) →
    exec i { s with inputs := inps, seq := q } = .next { t with inputs := inps, seq := q }

/-- R176, R31: no instruction reads ST back. An instruction that is not LD ST,Vx does the same whatever ST holds, and leaves ST as
it was; LD ST,Vx overwrites it. -/
def Obligations.SoundTimerIsNeverReadBack : Prop :=
  ∀ (i : Instr) (s t : State) (b : Byte), exec i s = .next t →
    ((∀ x, i ≠ .ldSTVx x) → exec i { s with st := b } = .next { t with st := b }) ∧
    ((∃ x, i = .ldSTVx x) → exec i { s with st := b } = .next t)

/-! ### The step -/

/-- R195, R54, R63: the fetch reads the two bytes at pc as they stand, high byte first; at 4095 it fails with 4096, from 4096 on
with pc. -/
def Obligations.FetchReadsBigEndian : Prop :=
  ∀ s : State,
    (s.pc.toNat < 4095 → ∃ w, s.fetch = .ok w ∧
      w.toNat = (s.readByte s.pc.toNat).toNat * 256 + (s.readByte (s.pc.toNat + 1)).toNat) ∧
    (s.pc.toNat = 4095 → s.fetch = .error 4096) ∧
    (4096 ≤ s.pc.toNat → s.fetch = .error s.pc.toNat)

/-- R197, R205: when the word at pc decodes to an instruction, the step is `exec` of it on the state with no event yet, followed
by the end of the step (Present, ticks, the inputs used up); a step stops exactly where `exec` does, with the same reason. -/
def Obligations.StepRunsDecodedInstruction : Prop :=
  ∀ (s : State) (w : Word) (i : Instr), s.AboutToFetch → s.fetch = .ok w → decode w = .ok i →
    step s = match exec i { s with events := [] } with
      | .next u => .next u.endStep
      | .fault f => .fault f
      | .refused r => .refused r

/-- R199, R224: an unknown word is a step that reports the word and pc, adds 2 to pc and changes nothing else before the end of
the step; the engine stays Running. -/
def Obligations.UnknownWordIsReportedNoOp : Prop :=
  ∀ (s : State) (w : Word), s.AboutToFetch → s.fetch = .ok w → decode w = .error (.unknownOpcode w) →
    ∃ u, step s = .next u.endStep ∧ u = { s with pc := s.pc + 2, events := [.unknownOpcode w s.pc] }

/-- R191, R238, R230: a halted engine's step changes nothing, whatever the inputs, and emits nothing, over any number of steps
(the model's own fields count the inputs: log entry 1). Decision D21. -/
def Obligations.HaltedIsAbsorbing : Prop :=
  ∀ (k : Nat) (s : State), s.status = .halted →
    Host.Core.run Sys2Proof.core (k + 1) s =
      .next ({ s with inputs := s.inputs.drop (k + 1), seq := s.seq + (k + 1), events := [] } : State)

/-- R192, R228: an abort wins over everything else in a Running engine's step and changes only STATUS and CAUSE: no fetch, no
event, no tick, WAIT as it was. Decisions D29, D32. -/
def Obligations.AbortHalts : Prop :=
  ∀ s : State, s.status = .running → s.input.abort = true →
    step s = .next { s with status := .halted, cause := .abort, inputs := s.inputs.tail, seq := s.seq + 1, events := [] }

/-- R193, R228: a pc above PROG_SIZE + 0x200, strictly, halts the engine with EndOfProgram and does nothing else; a pc equal to it
does not (decision D20: the formula's strict sign): there the step fetches. -/
def Obligations.EndOfProgramHalts : Prop :=
  ∀ s : State, s.status = .running → s.input.abort = false →
    (s.progSize.toNat + 0x200 < s.pc.toNat →
      step s = .next
        { s with status := .halted, cause := .endOfProgram, inputs := s.inputs.tail, seq := s.seq + 1, events := [] }) ∧
    (s.pc.toNat ≤ s.progSize.toNat + 0x200 → s.AboutToFetch)

/-- R195, R201, R225: a fetch outside memory is the fatal error AddressOutOfRange with FWORD 0 and the lowest address that does
not exist; nothing else changes, no tick and no Present. -/
def Obligations.FetchFaultHalts : Prop :=
  ∀ s : State, s.AboutToFetch → 4095 ≤ s.pc.toNat →
    ∃ t, step s = .next t ∧ t = { s with
      status := .halted, cause := .fatal .addressOutOfRange, fpc := s.pc, fword := 0, faddr := t.faddr,
      events := [.fatal .addressOutOfRange s.pc 0 t.faddr], inputs := s.inputs.tail, seq := s.seq + 1 } ∧
      t.faddr.toNat = max s.pc.toNat 4096

/-- R203, R204, R237: the end of a step. After an instruction that leaves the engine Running and DIRTY set, one Present with the
framebuffer is emitted and DIRTY cleared; else no event. Then the step's ticks lower the timers, unless WAIT is set, which
discards them. After a halt neither happens. The order is decision D22. -/
def Obligations.EndOfStep : Prop :=
  ∀ u : State, ∃ t, u.endStep = t ∧
    t = { u with dt := t.dt, st := t.st, dirty := t.dirty, events := t.events, inputs := u.inputs.tail, seq := u.seq + 1 } ∧
    (u.status = .running → t.dirty = false ∧
      t.events = u.events ++ (if u.dirty = true then [.present u.fb] else []) ∧
      (u.wait = false → t.dt.toNat = u.dt.toNat - u.input.ticks ∧ t.st.toNat = u.st.toNat - u.input.ticks) ∧
      (u.wait = true → t.dt = u.dt ∧ t.st = u.st)) ∧
    (u.status = .halted → t.dt = u.dt ∧ t.st = u.st ∧ t.dirty = u.dirty ∧ t.events = u.events)

/-- R200, R237, R173: a step of an engine that waits for a key and gets none changes nothing but WAIT: pc, the registers and the
timers stay, whatever TICKS is, and no event is emitted. Decision D16. -/
def Obligations.WaitStepChangesOnlyWait : Prop :=
  ∀ (s : State) (w : Word) (x : Nibble), s.AboutToFetch → s.dirty = false → s.fetch = .ok w → decode w = .ok (.ldVxK x) →
    s.input.keyEvt = none →
    step s = .next { s with wait := true, inputs := s.inputs.tail, seq := s.seq + 1, events := [] }

/-- R204: in a state with DIRTY clear, exactly the steps that complete a CLS or a DRW emit a Present, one each, with the picture
after the instruction. -/
def Obligations.PresentExactlyAfterDrawing : Prop :=
  ∀ (s t : State), s.dirty = false → step s = .next t →
    ((∃ fb, Event.present fb ∈ t.events) ↔
      (s.AboutToFetch ∧ t.status = .running ∧
        ∃ w i, s.fetch = .ok w ∧ decode w = .ok i ∧ ((∃ ign, i = .cls ign) ∨ ∃ x y n, i = .drw x y n))) ∧
    (∀ fb, Event.present fb ∈ t.events → t.events = [.present t.fb])

/-! ### Invariants -/

/-- The invariant of the reachable states holds after reset (R46). -/
def Obligations.InvariantHoldsAtReset : Prop := State.reset.Inv

/-- R250, R256: it holds after every reset and in every launch state, for every value of the parameter FONT. -/
def Obligations.InvariantHoldsAtLaunch : Prop :=
  ∀ (font : Config.Font) (s : State),
    (s.hostReset font).Inv ∧ ∀ (t : State) (rom : Option (List Byte)), s.launch font rom = .ok t → t.Inv

/-- HEADLINE. Every step keeps the invariant, from every state that has it: memory stays canonical, SP at most 16 (R28), stack
slots and pc in their bounds (R24, R101), PROG_SIZE legal (R36), DIRTY clear (R204), CAUSE and the fault record in step with
STATUS (R34), and a waiting engine at a LD Vx,K (R35). -/
def Obligations.StepKeepsInvariant : Prop :=
  ∀ s t : State, s.Inv → step s = .next t → t.Inv

/-- R190, R85: the step is total: from every state that has the invariant there is a next state, so no reachable state
stops the model, and the fault of log entry 6 is never raised in a run. -/
def Obligations.StepIsTotalUnderInvariant : Prop :=
  ∀ s : State, s.Inv → ∃ t, step s = .next t

/-! ### Reset and launch -/

/-- R46, R250 to R253: the values after the reset operation, in any state and for every value of the parameter FONT (R41, D5). Zero
memory outside the font is decision D4, the framebuffer and the flags D26. The model's own fields are not named here. -/
def Obligations.ResetValues : Prop :=
  ∀ (font : Config.Font) (s : State), ∃ t, s.hostReset font = t ∧
    (∀ r, t.getV r = 0) ∧ t.pc.toNat = 0x200 ∧ t.idx.toNat = 0 ∧ t.sp.toNat = 0 ∧ (∀ k : Fin 16, t.stack[k] = 0) ∧
    t.dt = 0 ∧ t.st = 0 ∧ t.status = .running ∧ t.cause = .none ∧ t.fpc = 0 ∧ t.fword = 0 ∧ t.faddr = 0 ∧
    t.wait = false ∧ t.progSize = 0 ∧ t.dirty = false ∧ (∀ c r, t.cell c r = false) ∧
    (∀ a : Fin 80, t.readByte a = font[a]) ∧ (∀ a, 80 ≤ a → t.readByte a = 0)

/-- R41, R250: the reset state of the model, from which a run starts with nothing placed, is the reset with the default FONT
(general knowledge G2, log entry 4), and no other FONT gives it. -/
def Obligations.ResetStateIsDefaultFont : Prop :=
  ∀ font : Config.Font, State.reset.hostReset font = State.reset ↔ font = Config.defaultFont

/-- R226, R256, R257: the launch state is a function of the program bytes and FONT (but for what the host will supply), from
whatever state the engine is reset; a program of more than 3584 bytes and a ROM that could not be read give no run. Zero
fill is decision D4, the sequence D36. -/
def Obligations.LaunchState : Prop :=
  ∀ (font : Config.Font) (s : State) (prog : List Byte),
    (prog.length ≤ 3584 → ∃ t, s.launch font (some prog) = .ok t ∧
      t = { State.reset with mem := t.mem, progSize := t.progSize, inputs := s.inputs, seq := s.seq } ∧
      t.progSize.toNat = prog.length ∧
      (∀ a : Fin 80, t.readByte a = font[a]) ∧
      (∀ k, (h : k < prog.length) → t.readByte (0x200 + k) = prog[k]) ∧
      (∀ a, 80 ≤ a → (a < 0x200 ∨ 0x200 + prog.length ≤ a) → t.readByte a = 0)) ∧
    (3584 < prog.length → s.launch font (some prog) = .error .programTooLarge) ∧
    s.launch font none = .error .romReadFailure
end

