-- ==== Sys2Proof/Laws/Memory.lean ====
section
/-! SUPPORT. Memory: reading after a write, the canonical form kept by every operation, the block operations, and the read and
write primitives of 20_memory.md R52, R53. -/

namespace Sys2Proof.Machine

theorem Memory.wfFrom_cons {lo b : Nat} {u : Byte} {m : Memory} :
    Memory.wfFrom lo ((b, u) :: m) = true ↔
      lo ≤ b ∧ b < Config.memSize ∧ u ≠ resetByte b ∧ Memory.wfFrom (b + 1) m = true := by
  simp [Memory.wfFrom, and_assoc]

/-- A canonical list allows every lower start. -/
theorem Memory.wfFrom_mono {lo lo' : Nat} {m : Memory} (h : Memory.wfFrom lo m = true) (hl : lo' ≤ lo) :
    Memory.wfFrom lo' m = true := by
  cases m with
  | nil => rfl
  | cons c m =>
    obtain ⟨b, u⟩ := c
    rw [Memory.wfFrom_cons] at h ⊢
    exact ⟨hl.trans h.1, h.2⟩

/-- Nothing is listed below the start of a canonical list. -/
theorem Memory.lookup_lt {lo a : Nat} {m : Memory} (h : Memory.wfFrom lo m = true) (ha : a < lo) :
    Memory.lookup m a = none := by
  cases m with
  | nil => rfl
  | cons c m =>
    obtain ⟨b, u⟩ := c
    have hb := (Memory.wfFrom_cons.mp h).1
    simp [Memory.lookup, show a ≠ b by omega, show a < b by omega]

/-- What is listed for each address after a write. -/
theorem Memory.lookup_poke {m : Memory} {a a' : Nat} {v : Byte} : ∀ {lo : Nat}, Memory.wfFrom lo m = true →
    Memory.lookup (Memory.poke m a v) a' =
      if a' = a then (if v = resetByte a then none else some v) else Memory.lookup m a' := by
  induction m with
  | nil =>
    intro lo _
    by_cases hv : v = resetByte a <;> by_cases ha : a' = a <;> simp [Memory.poke, Memory.lookup, hv, ha]
  | cons c m ih =>
    obtain ⟨b, u⟩ := c
    intro lo h
    obtain ⟨_, _, _, hm⟩ := Memory.wfFrom_cons.mp h
    rcases Nat.lt_trichotomy a b with hab | hab | hab
    · by_cases hv : v = resetByte a
      · by_cases ha : a' = a
        · simp [Memory.poke, Memory.lookup, hv, hab, ha, show a ≠ b by omega]
        · simp [Memory.poke, Memory.lookup, hv, hab, ha]
      · by_cases ha : a' = a
        · simp [Memory.poke, Memory.lookup, hv, hab, ha]
        · by_cases hlt : a' < a
          · simp [Memory.poke, Memory.lookup, hv, hab, ha, hlt, show a' ≠ b by omega, show a' < b by omega]
          · simp [Memory.poke, Memory.lookup, hv, hab, ha, hlt]
    · subst hab
      by_cases hv : v = resetByte a
      · by_cases hlt : a' < a
        · simp [Memory.poke, Memory.lookup, hv, hlt, show a' ≠ a by omega,
            Memory.lookup_lt hm (show a' < a + 1 by omega)]
        · by_cases ha : a' = a
          · simp [Memory.poke, hv, ha, Memory.lookup_lt hm (show a < a + 1 by omega)]
          · simp [Memory.poke, Memory.lookup, hv, hlt, ha]
      · by_cases ha : a' = a <;> simp [Memory.poke, Memory.lookup, hv, ha]
    · by_cases ha : a' = b
      · simp [Memory.poke, Memory.lookup, ha, show ¬ a < b by omega, show ¬ a = b by omega, show ¬ b = a by omega]
      · by_cases hlt : a' < b
        · simp [Memory.poke, Memory.lookup, ha, hlt, show ¬ a < b by omega, show ¬ a = b by omega,
            show ¬ a' = a by omega]
        · simp [Memory.poke, Memory.lookup, ha, hlt, show ¬ a < b by omega, show ¬ a = b by omega, ih hm]

/-- A byte read after a write to the same address (R53). -/
theorem Memory.peek_poke_same {m : Memory} {a : Nat} {v : Byte} (h : Memory.wf m = true) :
    Memory.peek (Memory.poke m a v) a = v := by
  rw [Memory.peek, Memory.lookup_poke h, if_pos rfl]
  split <;> simp_all

/-- A write changes no other address (R53). -/
theorem Memory.peek_poke_other {m : Memory} {a a' : Nat} {v : Byte} (h : Memory.wf m = true) (ha : a' ≠ a) :
    Memory.peek (Memory.poke m a v) a' = Memory.peek m a' := by
  rw [Memory.peek, Memory.peek, Memory.lookup_poke h, if_neg ha]

theorem Memory.poke_wfFrom {m : Memory} {a : Nat} {v : Byte} (ha : a < Config.memSize) :
    ∀ {lo : Nat}, lo ≤ a → Memory.wfFrom lo m = true → Memory.wfFrom lo (Memory.poke m a v) = true := by
  induction m with
  | nil =>
    intro lo hlo _
    by_cases hv : v = resetByte a <;> simp [Memory.poke, hv, Memory.wfFrom, hlo, ha]
  | cons c m ih =>
    obtain ⟨b, u⟩ := c
    intro lo hlo h
    obtain ⟨hlb, hb, hu, hm⟩ := Memory.wfFrom_cons.mp h
    unfold Memory.poke
    split
    · rename_i hab
      split
      · exact h
      · rename_i hv
        rw [Memory.wfFrom_cons, Memory.wfFrom_cons]
        exact ⟨hlo, ha, hv, hab, hb, hu, hm⟩
    · split
      · rename_i hab
        subst hab
        split
        · exact Memory.wfFrom_mono hm (by omega)
        · rename_i hv
          exact Memory.wfFrom_cons.mpr ⟨hlo, ha, hv, hm⟩
      · rename_i h1 h2
        exact Memory.wfFrom_cons.mpr ⟨hlb, hb, hu, ih (by omega) hm⟩

/-- A write keeps the canonical form. -/
theorem Memory.poke_wf {m : Memory} {a : Nat} {v : Byte} (ha : a < Config.memSize) (h : Memory.wf m = true) :
    Memory.wf (Memory.poke m a v) = true := Memory.poke_wfFrom ha (Nat.zero_le _) h

/-- Block writes inside memory keep the canonical form. -/
theorem writeBlock_wf {bs : List Byte} : ∀ {m : Memory} {a : Nat}, a + bs.length ≤ Config.memSize → Memory.wf m = true →
    Memory.wf (writeBlock m a bs) = true := by
  induction bs with
  | nil => intro m a _ h; exact h
  | cons b bs ih =>
    intro m a ha h
    simp only [List.length_cons] at ha
    exact ih (by omega) (Memory.poke_wf (by omega) h)

/-- A block write changes no byte outside the block. -/
theorem peek_writeBlock_outside {bs : List Byte} : ∀ {m : Memory} {a a' : Nat}, a + bs.length ≤ Config.memSize →
    Memory.wf m = true → (a' < a ∨ a + bs.length ≤ a') →
    Memory.peek (writeBlock m a bs) a' = Memory.peek m a' := by
  induction bs with
  | nil => intro m a a' _ _ _; rfl
  | cons b bs ih =>
    intro m a a' ha h hout
    simp only [List.length_cons] at ha hout
    rw [writeBlock, ih (by omega) (Memory.poke_wf (by omega) h) (by omega),
      Memory.peek_poke_other h (by omega)]

/-- What a block write leaves at each of its bytes. -/
theorem peek_writeBlock_at {bs : List Byte} : ∀ {m : Memory} {a k : Nat}, a + bs.length ≤ Config.memSize →
    Memory.wf m = true → (hk : k < bs.length) → Memory.peek (writeBlock m a bs) (a + k) = bs[k] := by
  induction bs with
  | nil => intro m a k _ _ hk; simp at hk
  | cons b bs ih =>
    intro m a k ha h hk
    simp only [List.length_cons] at ha hk
    have hw := Memory.poke_wf (v := b) (show a < Config.memSize by omega) h
    cases k with
    | zero =>
      rw [writeBlock, peek_writeBlock_outside (by omega) hw (by omega), Nat.add_zero, Memory.peek_poke_same h]
      rfl
    | succ k =>
      have := ih (k := k) (show a + 1 + bs.length ≤ Config.memSize by omega) hw (by omega)
      rw [writeBlock, show a + (k + 1) = a + 1 + k by omega, this]
      rfl

@[simp] theorem readBlock_length {m : Memory} {a n : Nat} : (readBlock m a n).length = n := by simp [readBlock]

@[simp] theorem readBlock_getElem {m : Memory} {a n k : Nat} (hk : k < (readBlock m a n).length) :
    (readBlock m a n)[k] = Memory.peek m (a + k) := by simp [readBlock]

/-- The one-byte read inside memory (R52). -/
theorem memRead1_ok {m : Memory} {a : Nat} (h : a < 4096) : memRead1 m a = .ok (Memory.peek m a) := by
  simp [memRead1, Config.memSize, show ¬ 4096 ≤ a by omega]

/-- The one-byte read outside memory (R52). -/
theorem memRead1_error {m : Memory} {a : Nat} (h : 4096 ≤ a) : memRead1 m a = .error a := by
  simp [memRead1, Config.memSize, h]

/-- The two-byte read inside memory: big-endian (R52, R54). -/
theorem memRead2_ok {m : Memory} {a : Nat} (h : a + 1 < 4096) :
    memRead2 m a = .ok (wordOfBytes (Memory.peek m a) (Memory.peek m (a + 1))) := by
  simp [memRead2, memRead1_ok (show a < 4096 by omega), memRead1_ok h]

/-- The two-byte read that fails reports the lowest address outside memory (R52). -/
theorem memRead2_error {m : Memory} {a : Nat} (h : 4096 ≤ a + 1) : memRead2 m a = .error (max a 4096) := by
  by_cases ha : 4096 ≤ a
  · simp [memRead2, memRead1_error ha, Nat.max_eq_left ha]
  · have : a = 4095 := by omega
    subst this
    simp [memRead2, memRead1_ok (show (4095 : Nat) < 4096 by omega), memRead1_error (show 4096 ≤ 4095 + 1 by omega)]

/-- A fetch that succeeds is a fetch inside memory. -/
theorem State.fetch_ok {s : State} {w : Word} (h : s.fetch = .ok w) :
    s.pc.toNat + 1 < 4096 ∧ w = wordOfBytes (s.readByte s.pc.toNat) (s.readByte (s.pc.toNat + 1)) := by
  by_cases hp : s.pc.toNat + 1 < 4096
  · rw [State.fetch, memRead2_ok hp] at h
    exact ⟨hp, by injection h with h; exact h.symm⟩
  · rw [State.fetch, memRead2_error (by omega)] at h
    cases h

/-- The range check passes exactly the ranges that lie inside memory, and the empty ones. -/
theorem rangeFault_none {a n : Nat} : rangeFault a n = none ↔ n = 0 ∨ a + n ≤ 4096 := by
  unfold rangeFault Config.memSize
  split <;> simp <;> omega

/-- A range that fails reports its lowest address outside memory. -/
theorem rangeFault_some {a n b : Nat} : rangeFault a n = some b ↔ 0 < n ∧ 4096 < a + n ∧ b = max a 4096 := by
  unfold rangeFault Config.memSize
  split
  · simp; omega
  · simp; omega

end Sys2Proof.Machine
end

