-- ==== Sys2Proof/Laws/Boot.lean ====
section
/-! SUPPORT. What the host's reset and load leave (70_reset_and_hazards.md R250 to R257), for every value of the parameter FONT,
and the widths of R7 as facts about the registers. -/

namespace Sys2Proof.Machine

variable (font : Config.Font) (s : State)

/-! ### The memory of a reset -/

/-- FONT is 80 bytes (R41). -/
theorem font_length : font.toList.length = 80 := Vector.length_toList

theorem font_fits : Config.fontBase + font.toList.length ≤ Config.memSize := by rw [font_length]; decide

theorem fontMemory_wf : Memory.wf (fontMemory font) = true := writeBlock_wf (font_fits font) rfl

/-- A glyph byte of a reset (R251). -/
theorem peek_fontMemory_font (a : Fin 80) : Memory.peek (fontMemory font) a = font[a] := by
  have h := peek_writeBlock_at (m := []) (k := a.val) (font_fits font) rfl (by rw [font_length]; exact a.isLt)
  rw [Nat.zero_add] at h
  simpa [fontMemory] using h

/-- Every other byte of a reset (R251). -/
theorem peek_fontMemory_zero {a : Nat} (h : 80 ≤ a) : Memory.peek (fontMemory font) a = 0 := by
  rw [fontMemory, peek_writeBlock_outside (font_fits font) rfl (.inr (by rw [font_length]; exact h)), Memory.peek, Memory.lookup,
    resetByte, List.getD_eq_getElem?_getD]
  simp [List.getElem?_eq_none (show Config.fontTable.length ≤ a from h)]

/-! ### The reset operation, field by field -/

@[simp] theorem State.hostReset_v : (s.hostReset font).v = State.reset.v := rfl
@[simp] theorem State.hostReset_pc : (s.hostReset font).pc = State.reset.pc := rfl
@[simp] theorem State.hostReset_idx : (s.hostReset font).idx = 0 := rfl
@[simp] theorem State.hostReset_sp : (s.hostReset font).sp = 0 := rfl
@[simp] theorem State.hostReset_stack : (s.hostReset font).stack = State.reset.stack := rfl
@[simp] theorem State.hostReset_dt : (s.hostReset font).dt = 0 := rfl
@[simp] theorem State.hostReset_st : (s.hostReset font).st = 0 := rfl
@[simp] theorem State.hostReset_status : (s.hostReset font).status = .running := rfl
@[simp] theorem State.hostReset_cause : (s.hostReset font).cause = .none := rfl
@[simp] theorem State.hostReset_fpc : (s.hostReset font).fpc = 0 := rfl
@[simp] theorem State.hostReset_fword : (s.hostReset font).fword = 0 := rfl
@[simp] theorem State.hostReset_faddr : (s.hostReset font).faddr = 0 := rfl
@[simp] theorem State.hostReset_wait : (s.hostReset font).wait = false := rfl
@[simp] theorem State.hostReset_progSize : (s.hostReset font).progSize = 0 := rfl
@[simp] theorem State.hostReset_fb : (s.hostReset font).fb = Framebuffer.off := rfl
@[simp] theorem State.hostReset_dirty : (s.hostReset font).dirty = false := rfl
@[simp] theorem State.hostReset_mem : (s.hostReset font).mem = fontMemory font := rfl
@[simp] theorem State.hostReset_inputs : (s.hostReset font).inputs = s.inputs := rfl
@[simp] theorem State.hostReset_seq : (s.hostReset font).seq = s.seq := rfl
@[simp] theorem State.hostReset_events : (s.hostReset font).events = [] := rfl

/-- All that a launch can answer (R226, R256). -/
theorem State.launch_cases {rom : Option (List Byte)} {r : Except LoadError State} (h : s.launch font rom = r) :
    (rom = none ∧ r = .error .romReadFailure) ∨
    (∃ bytes, rom = some bytes ∧ Config.maxProg < bytes.length ∧ r = .error .programTooLarge) ∨
    (∃ bytes, rom = some bytes ∧ bytes.length ≤ Config.maxProg ∧ r = .ok { s.hostReset font with
      mem := writeBlock (fontMemory font) Config.progBase bytes, progSize := BitVec.ofNat 12 bytes.length }) := by
  subst h
  cases rom with
  | none => exact .inl ⟨rfl, rfl⟩
  | some bytes =>
    unfold State.launch State.loadImage
    by_cases hl : Config.maxProg < bytes.length
    · exact .inr (.inl ⟨bytes, rfl, hl, if_pos hl⟩)
    · exact .inr (.inr ⟨bytes, rfl, Nat.le_of_not_lt hl, if_neg hl⟩)

/-! ### The widths of 00_scope.md R7 -/

theorem State.pc_lt : s.pc.toNat < 2 ^ Config.pcWidth := s.pc.isLt
theorem State.idx_lt : s.idx.toNat < 2 ^ Config.iWidth := s.idx.isLt
theorem State.dt_lt : s.dt.toNat < 2 ^ Config.timerWidth := s.dt.isLt
theorem State.st_lt : s.st.toNat < 2 ^ Config.timerWidth := s.st.isLt

end Sys2Proof.Machine
end

