-- ==== Sys2Proof/Laws/Decode.lean ====
section
/-! SUPPORT. Fields of an instruction word: what masking keeps of them, and each word as its fields put together. -/

namespace Sys2Proof

theorem extract_and (w m : Word) (lo n : Nat) (h : m.extractLsb' lo n = BitVec.allOnes n) :
    (w &&& m).extractLsb' lo n = w.extractLsb' lo n := by
  rw [BitVec.extractLsb'_and, h, BitVec.and_allOnes]

/-- Masks of R74 keep `op`: the masked word's `op` is the word's. -/
theorem opField_and_F000 (w : Word) : opField (w &&& 0xF000) = opField w := extract_and w _ 12 4 (by decide)
theorem opField_and_F00F (w : Word) : opField (w &&& 0xF00F) = opField w := extract_and w _ 12 4 (by decide)
theorem opField_and_F0FF (w : Word) : opField (w &&& 0xF0FF) = opField w := extract_and w _ 12 4 (by decide)
/-- The mask 0xF00F keeps `n`. -/
theorem nField_and_F00F (w : Word) : nField (w &&& 0xF00F) = nField w := extract_and w _ 0 4 (by decide)
/-- The mask 0xF0FF keeps `nn`. -/
theorem nnField_and_F0FF (w : Word) : nnField (w &&& 0xF0FF) = nnField w := extract_and w _ 0 8 (by decide)

/-- The key of a word that the mask 0xF000 selects. -/
theorem op_of_mask {w p : Word} (h : w &&& 0xF000 = p) : opField w = opField p := by
  rw [← h, opField_and_F000]

/-- The key of a word that the mask 0xF00F selects. -/
theorem op_n_of_mask {w p : Word} (h : w &&& 0xF00F = p) : opField w = opField p ∧ nField w = nField p := by
  rw [← h, opField_and_F00F, nField_and_F00F]; exact ⟨rfl, rfl⟩

/-- The key of a word that the mask 0xF0FF selects. -/
theorem op_nn_of_mask {w p : Word} (h : w &&& 0xF0FF = p) : opField w = opField p ∧ nnField w = nnField p := by
  rw [← h, opField_and_F0FF, nnField_and_F0FF]; exact ⟨rfl, rfl⟩

theorem toNat_opField (w : Word) : (opField w).toNat = w.toNat / 4096 := by
  have := w.isLt
  simp only [opField, BitVec.extractLsb'_toNat, Nat.shiftRight_eq_div_pow]; omega
theorem toNat_xField (w : Word) : (xField w).toNat = w.toNat / 256 % 16 := by
  simp only [xField, BitVec.extractLsb'_toNat, Nat.shiftRight_eq_div_pow]
theorem toNat_yField (w : Word) : (yField w).toNat = w.toNat / 16 % 16 := by
  simp only [yField, BitVec.extractLsb'_toNat, Nat.shiftRight_eq_div_pow]
theorem toNat_nField (w : Word) : (nField w).toNat = w.toNat % 16 := by
  simp only [nField, BitVec.extractLsb'_toNat, Nat.shiftRight_eq_div_pow]; omega
theorem toNat_nnField (w : Word) : (nnField w).toNat = w.toNat % 256 := by
  simp only [nnField, BitVec.extractLsb'_toNat, Nat.shiftRight_eq_div_pow]; omega
theorem toNat_nnnField (w : Word) : (nnnField w).toNat = w.toNat % 4096 := by
  simp only [nnnField, BitVec.extractLsb'_toNat, Nat.shiftRight_eq_div_pow]; omega
theorem toNat_midField (w : Word) : (midField w).toNat = w.toNat / 16 % 256 := by
  simp only [midField, BitVec.extractLsb'_toNat, Nat.shiftRight_eq_div_pow]

/-- Putting bit vectors together, as numbers. -/
theorem toNat_append {a b : Nat} (u : BitVec a) (v : BitVec b) : (u ++ v).toNat = u.toNat * 2 ^ b + v.toNat := by
  rw [BitVec.toNat_append, Nat.shiftLeft_eq, Nat.mul_comm, ← Nat.two_pow_add_eq_or_of_lt v.isLt]

/-! ### The fields of a word that is put together from them, per format of R72 -/

@[simp] theorem opField_A (a : Nibble) (nnn : Addr12) : opField (a ++ nnn : Word) = a := by
  apply BitVec.eq_of_toNat_eq
  have := a.isLt
  have := nnn.isLt
  simp only [toNat_opField, toNat_append]; omega
@[simp] theorem nnnField_A (a : Nibble) (nnn : Addr12) : nnnField (a ++ nnn : Word) = nnn := by
  apply BitVec.eq_of_toNat_eq
  have := a.isLt
  have := nnn.isLt
  simp only [toNat_nnnField, toNat_append]; omega
@[simp] theorem opField_XI (a x : Nibble) (nn : Byte) : opField (a ++ x ++ nn : Word) = a := by
  apply BitVec.eq_of_toNat_eq
  have := a.isLt
  have := x.isLt
  have := nn.isLt
  simp only [toNat_opField, toNat_append]; omega
@[simp] theorem xField_XI (a x : Nibble) (nn : Byte) : xField (a ++ x ++ nn : Word) = x := by
  apply BitVec.eq_of_toNat_eq
  have := a.isLt
  have := x.isLt
  have := nn.isLt
  simp only [toNat_xField, toNat_append]; omega
@[simp] theorem nnField_XI (a x : Nibble) (nn : Byte) : nnField (a ++ x ++ nn : Word) = nn := by
  apply BitVec.eq_of_toNat_eq
  have := a.isLt
  have := x.isLt
  have := nn.isLt
  simp only [toNat_nnField, toNat_append]; omega
@[simp] theorem opField_XYN (a x y n : Nibble) : opField (a ++ x ++ y ++ n : Word) = a := by
  apply BitVec.eq_of_toNat_eq
  have := a.isLt
  have := x.isLt
  have := y.isLt
  have := n.isLt
  simp only [toNat_opField, toNat_append]; omega
@[simp] theorem xField_XYN (a x y n : Nibble) : xField (a ++ x ++ y ++ n : Word) = x := by
  apply BitVec.eq_of_toNat_eq
  have := a.isLt
  have := x.isLt
  have := y.isLt
  have := n.isLt
  simp only [toNat_xField, toNat_append]; omega
@[simp] theorem yField_XYN (a x y n : Nibble) : yField (a ++ x ++ y ++ n : Word) = y := by
  apply BitVec.eq_of_toNat_eq
  have := a.isLt
  have := x.isLt
  have := y.isLt
  have := n.isLt
  simp only [toNat_yField, toNat_append]; omega
@[simp] theorem nField_XYN (a x y n : Nibble) : nField (a ++ x ++ y ++ n : Word) = n := by
  apply BitVec.eq_of_toNat_eq
  have := a.isLt
  have := x.isLt
  have := y.isLt
  have := n.isLt
  simp only [toNat_nField, toNat_append]; omega
@[simp] theorem opField_S4 (a : Nibble) (m : Byte) (n : Nibble) : opField (a ++ m ++ n : Word) = a := by
  apply BitVec.eq_of_toNat_eq
  have := a.isLt
  have := m.isLt
  have := n.isLt
  simp only [toNat_opField, toNat_append]; omega
@[simp] theorem midField_S4 (a : Nibble) (m : Byte) (n : Nibble) : midField (a ++ m ++ n : Word) = m := by
  apply BitVec.eq_of_toNat_eq
  have := a.isLt
  have := m.isLt
  have := n.isLt
  simp only [toNat_midField, toNat_append]; omega
@[simp] theorem nField_S4 (a : Nibble) (m : Byte) (n : Nibble) : nField (a ++ m ++ n : Word) = n := by
  apply BitVec.eq_of_toNat_eq
  have := a.isLt
  have := m.isLt
  have := n.isLt
  simp only [toNat_nField, toNat_append]; omega

/-! ### What the three masks of R74 leave of a word -/

theorem and_F000 (w : Word) : w &&& 0xF000 = opField w ++ 0#12 := by
  apply BitVec.eq_of_getLsbD_eq
  intro i hi
  simp only [opField, BitVec.getLsbD_and, BitVec.getLsbD_append, BitVec.getLsbD_extractLsb']
  interval_cases i <;> simp

theorem and_F00F (w : Word) : w &&& 0xF00F = opField w ++ 0#8 ++ nField w := by
  apply BitVec.eq_of_getLsbD_eq
  intro i hi
  simp only [opField, nField, BitVec.getLsbD_and, BitVec.getLsbD_append, BitVec.getLsbD_extractLsb']
  interval_cases i <;> simp

theorem and_F0FF (w : Word) : w &&& 0xF0FF = opField w ++ 0#4 ++ nnField w := by
  apply BitVec.eq_of_getLsbD_eq
  intro i hi
  simp only [opField, nnField, BitVec.getLsbD_and, BitVec.getLsbD_append, BitVec.getLsbD_extractLsb']
  interval_cases i <;> simp

end Sys2Proof
end

