-- ==== Sys2Proof/Laws/State.lean ====
section
/-! SUPPORT. What each update of the state does to each field: one lemma per field per update, true by unfolding, so that
no later proof unfolds a record update. -/

namespace Sys2Proof.Machine

variable (s : State)

/-! ### setV -/

@[simp] theorem State.setV_v (x : Nibble) (b : Byte) : (s.setV x b).v = s.v.set x.toNat b x.isLt := rfl
@[simp] theorem State.setV_pc (x : Nibble) (b : Byte) : (s.setV x b).pc = s.pc := rfl
@[simp] theorem State.setV_idx (x : Nibble) (b : Byte) : (s.setV x b).idx = s.idx := rfl
@[simp] theorem State.setV_sp (x : Nibble) (b : Byte) : (s.setV x b).sp = s.sp := rfl
@[simp] theorem State.setV_stack (x : Nibble) (b : Byte) : (s.setV x b).stack = s.stack := rfl
@[simp] theorem State.setV_dt (x : Nibble) (b : Byte) : (s.setV x b).dt = s.dt := rfl
@[simp] theorem State.setV_st (x : Nibble) (b : Byte) : (s.setV x b).st = s.st := rfl
@[simp] theorem State.setV_status (x : Nibble) (b : Byte) : (s.setV x b).status = s.status := rfl
@[simp] theorem State.setV_cause (x : Nibble) (b : Byte) : (s.setV x b).cause = s.cause := rfl
@[simp] theorem State.setV_fpc (x : Nibble) (b : Byte) : (s.setV x b).fpc = s.fpc := rfl
@[simp] theorem State.setV_fword (x : Nibble) (b : Byte) : (s.setV x b).fword = s.fword := rfl
@[simp] theorem State.setV_faddr (x : Nibble) (b : Byte) : (s.setV x b).faddr = s.faddr := rfl
@[simp] theorem State.setV_wait (x : Nibble) (b : Byte) : (s.setV x b).wait = s.wait := rfl
@[simp] theorem State.setV_progSize (x : Nibble) (b : Byte) : (s.setV x b).progSize = s.progSize := rfl
@[simp] theorem State.setV_fb (x : Nibble) (b : Byte) : (s.setV x b).fb = s.fb := rfl
@[simp] theorem State.setV_dirty (x : Nibble) (b : Byte) : (s.setV x b).dirty = s.dirty := rfl
@[simp] theorem State.setV_mem (x : Nibble) (b : Byte) : (s.setV x b).mem = s.mem := rfl
@[simp] theorem State.setV_inputs (x : Nibble) (b : Byte) : (s.setV x b).inputs = s.inputs := rfl
@[simp] theorem State.setV_seq (x : Nibble) (b : Byte) : (s.setV x b).seq = s.seq := rfl
@[simp] theorem State.setV_events (x : Nibble) (b : Byte) : (s.setV x b).events = s.events := rfl

/-! ### advance -/

@[simp] theorem State.advance_v : (s.advance).v = s.v := rfl
@[simp] theorem State.advance_pc : (s.advance).pc = s.pc + Config.instrBytes := rfl
@[simp] theorem State.advance_idx : (s.advance).idx = s.idx := rfl
@[simp] theorem State.advance_sp : (s.advance).sp = s.sp := rfl
@[simp] theorem State.advance_stack : (s.advance).stack = s.stack := rfl
@[simp] theorem State.advance_dt : (s.advance).dt = s.dt := rfl
@[simp] theorem State.advance_st : (s.advance).st = s.st := rfl
@[simp] theorem State.advance_status : (s.advance).status = s.status := rfl
@[simp] theorem State.advance_cause : (s.advance).cause = s.cause := rfl
@[simp] theorem State.advance_fpc : (s.advance).fpc = s.fpc := rfl
@[simp] theorem State.advance_fword : (s.advance).fword = s.fword := rfl
@[simp] theorem State.advance_faddr : (s.advance).faddr = s.faddr := rfl
@[simp] theorem State.advance_wait : (s.advance).wait = s.wait := rfl
@[simp] theorem State.advance_progSize : (s.advance).progSize = s.progSize := rfl
@[simp] theorem State.advance_fb : (s.advance).fb = s.fb := rfl
@[simp] theorem State.advance_dirty : (s.advance).dirty = s.dirty := rfl
@[simp] theorem State.advance_mem : (s.advance).mem = s.mem := rfl
@[simp] theorem State.advance_inputs : (s.advance).inputs = s.inputs := rfl
@[simp] theorem State.advance_seq : (s.advance).seq = s.seq := rfl
@[simp] theorem State.advance_events : (s.advance).events = s.events := rfl

/-! ### jump -/

@[simp] theorem State.jump_v (t : Word) : (s.jump t).v = s.v := rfl
@[simp] theorem State.jump_pc (t : Word) : (s.jump t).pc = t := rfl
@[simp] theorem State.jump_idx (t : Word) : (s.jump t).idx = s.idx := rfl
@[simp] theorem State.jump_sp (t : Word) : (s.jump t).sp = s.sp := rfl
@[simp] theorem State.jump_stack (t : Word) : (s.jump t).stack = s.stack := rfl
@[simp] theorem State.jump_dt (t : Word) : (s.jump t).dt = s.dt := rfl
@[simp] theorem State.jump_st (t : Word) : (s.jump t).st = s.st := rfl
@[simp] theorem State.jump_status (t : Word) : (s.jump t).status = s.status := rfl
@[simp] theorem State.jump_cause (t : Word) : (s.jump t).cause = s.cause := rfl
@[simp] theorem State.jump_fpc (t : Word) : (s.jump t).fpc = s.fpc := rfl
@[simp] theorem State.jump_fword (t : Word) : (s.jump t).fword = s.fword := rfl
@[simp] theorem State.jump_faddr (t : Word) : (s.jump t).faddr = s.faddr := rfl
@[simp] theorem State.jump_wait (t : Word) : (s.jump t).wait = s.wait := rfl
@[simp] theorem State.jump_progSize (t : Word) : (s.jump t).progSize = s.progSize := rfl
@[simp] theorem State.jump_fb (t : Word) : (s.jump t).fb = s.fb := rfl
@[simp] theorem State.jump_dirty (t : Word) : (s.jump t).dirty = s.dirty := rfl
@[simp] theorem State.jump_mem (t : Word) : (s.jump t).mem = s.mem := rfl
@[simp] theorem State.jump_inputs (t : Word) : (s.jump t).inputs = s.inputs := rfl
@[simp] theorem State.jump_seq (t : Word) : (s.jump t).seq = s.seq := rfl
@[simp] theorem State.jump_events (t : Word) : (s.jump t).events = s.events := rfl

/-! ### pushPc -/

@[simp] theorem State.pushPc_v (h : s.sp.toNat < Config.stackDepth) : (s.pushPc h).v = s.v := rfl
@[simp] theorem State.pushPc_pc (h : s.sp.toNat < Config.stackDepth) : (s.pushPc h).pc = s.pc := rfl
@[simp] theorem State.pushPc_idx (h : s.sp.toNat < Config.stackDepth) : (s.pushPc h).idx = s.idx := rfl
@[simp] theorem State.pushPc_sp (h : s.sp.toNat < Config.stackDepth) : (s.pushPc h).sp = s.sp + 1 := rfl
@[simp] theorem State.pushPc_stack (h : s.sp.toNat < Config.stackDepth) : (s.pushPc h).stack = s.stack.set s.sp.toNat s.pc h := rfl
@[simp] theorem State.pushPc_dt (h : s.sp.toNat < Config.stackDepth) : (s.pushPc h).dt = s.dt := rfl
@[simp] theorem State.pushPc_st (h : s.sp.toNat < Config.stackDepth) : (s.pushPc h).st = s.st := rfl
@[simp] theorem State.pushPc_status (h : s.sp.toNat < Config.stackDepth) : (s.pushPc h).status = s.status := rfl
@[simp] theorem State.pushPc_cause (h : s.sp.toNat < Config.stackDepth) : (s.pushPc h).cause = s.cause := rfl
@[simp] theorem State.pushPc_fpc (h : s.sp.toNat < Config.stackDepth) : (s.pushPc h).fpc = s.fpc := rfl
@[simp] theorem State.pushPc_fword (h : s.sp.toNat < Config.stackDepth) : (s.pushPc h).fword = s.fword := rfl
@[simp] theorem State.pushPc_faddr (h : s.sp.toNat < Config.stackDepth) : (s.pushPc h).faddr = s.faddr := rfl
@[simp] theorem State.pushPc_wait (h : s.sp.toNat < Config.stackDepth) : (s.pushPc h).wait = s.wait := rfl
@[simp] theorem State.pushPc_progSize (h : s.sp.toNat < Config.stackDepth) : (s.pushPc h).progSize = s.progSize := rfl
@[simp] theorem State.pushPc_fb (h : s.sp.toNat < Config.stackDepth) : (s.pushPc h).fb = s.fb := rfl
@[simp] theorem State.pushPc_dirty (h : s.sp.toNat < Config.stackDepth) : (s.pushPc h).dirty = s.dirty := rfl
@[simp] theorem State.pushPc_mem (h : s.sp.toNat < Config.stackDepth) : (s.pushPc h).mem = s.mem := rfl
@[simp] theorem State.pushPc_inputs (h : s.sp.toNat < Config.stackDepth) : (s.pushPc h).inputs = s.inputs := rfl
@[simp] theorem State.pushPc_seq (h : s.sp.toNat < Config.stackDepth) : (s.pushPc h).seq = s.seq := rfl
@[simp] theorem State.pushPc_events (h : s.sp.toNat < Config.stackDepth) : (s.pushPc h).events = s.events := rfl

/-! ### popStack -/

@[simp] theorem State.popStack_v : (s.popStack).v = s.v := rfl
@[simp] theorem State.popStack_pc : (s.popStack).pc = s.pc := rfl
@[simp] theorem State.popStack_idx : (s.popStack).idx = s.idx := rfl
@[simp] theorem State.popStack_sp : (s.popStack).sp = s.sp - 1 := rfl
@[simp] theorem State.popStack_stack : (s.popStack).stack = s.stack := rfl
@[simp] theorem State.popStack_dt : (s.popStack).dt = s.dt := rfl
@[simp] theorem State.popStack_st : (s.popStack).st = s.st := rfl
@[simp] theorem State.popStack_status : (s.popStack).status = s.status := rfl
@[simp] theorem State.popStack_cause : (s.popStack).cause = s.cause := rfl
@[simp] theorem State.popStack_fpc : (s.popStack).fpc = s.fpc := rfl
@[simp] theorem State.popStack_fword : (s.popStack).fword = s.fword := rfl
@[simp] theorem State.popStack_faddr : (s.popStack).faddr = s.faddr := rfl
@[simp] theorem State.popStack_wait : (s.popStack).wait = s.wait := rfl
@[simp] theorem State.popStack_progSize : (s.popStack).progSize = s.progSize := rfl
@[simp] theorem State.popStack_fb : (s.popStack).fb = s.fb := rfl
@[simp] theorem State.popStack_dirty : (s.popStack).dirty = s.dirty := rfl
@[simp] theorem State.popStack_mem : (s.popStack).mem = s.mem := rfl
@[simp] theorem State.popStack_inputs : (s.popStack).inputs = s.inputs := rfl
@[simp] theorem State.popStack_seq : (s.popStack).seq = s.seq := rfl
@[simp] theorem State.popStack_events : (s.popStack).events = s.events := rfl

/-! ### emit -/

@[simp] theorem State.emit_v (e : Event) : (s.emit e).v = s.v := rfl
@[simp] theorem State.emit_pc (e : Event) : (s.emit e).pc = s.pc := rfl
@[simp] theorem State.emit_idx (e : Event) : (s.emit e).idx = s.idx := rfl
@[simp] theorem State.emit_sp (e : Event) : (s.emit e).sp = s.sp := rfl
@[simp] theorem State.emit_stack (e : Event) : (s.emit e).stack = s.stack := rfl
@[simp] theorem State.emit_dt (e : Event) : (s.emit e).dt = s.dt := rfl
@[simp] theorem State.emit_st (e : Event) : (s.emit e).st = s.st := rfl
@[simp] theorem State.emit_status (e : Event) : (s.emit e).status = s.status := rfl
@[simp] theorem State.emit_cause (e : Event) : (s.emit e).cause = s.cause := rfl
@[simp] theorem State.emit_fpc (e : Event) : (s.emit e).fpc = s.fpc := rfl
@[simp] theorem State.emit_fword (e : Event) : (s.emit e).fword = s.fword := rfl
@[simp] theorem State.emit_faddr (e : Event) : (s.emit e).faddr = s.faddr := rfl
@[simp] theorem State.emit_wait (e : Event) : (s.emit e).wait = s.wait := rfl
@[simp] theorem State.emit_progSize (e : Event) : (s.emit e).progSize = s.progSize := rfl
@[simp] theorem State.emit_fb (e : Event) : (s.emit e).fb = s.fb := rfl
@[simp] theorem State.emit_dirty (e : Event) : (s.emit e).dirty = s.dirty := rfl
@[simp] theorem State.emit_mem (e : Event) : (s.emit e).mem = s.mem := rfl
@[simp] theorem State.emit_inputs (e : Event) : (s.emit e).inputs = s.inputs := rfl
@[simp] theorem State.emit_seq (e : Event) : (s.emit e).seq = s.seq := rfl
@[simp] theorem State.emit_events (e : Event) : (s.emit e).events = s.events ++ [e] := rfl

/-! ### takeFatal -/

@[simp] theorem State.takeFatal_v (e : FatalError) (w : Word) (a : Nat) : (s.takeFatal e w a).v = s.v := rfl
@[simp] theorem State.takeFatal_pc (e : FatalError) (w : Word) (a : Nat) : (s.takeFatal e w a).pc = s.pc := rfl
@[simp] theorem State.takeFatal_idx (e : FatalError) (w : Word) (a : Nat) : (s.takeFatal e w a).idx = s.idx := rfl
@[simp] theorem State.takeFatal_sp (e : FatalError) (w : Word) (a : Nat) : (s.takeFatal e w a).sp = s.sp := rfl
@[simp] theorem State.takeFatal_stack (e : FatalError) (w : Word) (a : Nat) : (s.takeFatal e w a).stack = s.stack := rfl
@[simp] theorem State.takeFatal_dt (e : FatalError) (w : Word) (a : Nat) : (s.takeFatal e w a).dt = s.dt := rfl
@[simp] theorem State.takeFatal_st (e : FatalError) (w : Word) (a : Nat) : (s.takeFatal e w a).st = s.st := rfl
@[simp] theorem State.takeFatal_status (e : FatalError) (w : Word) (a : Nat) : (s.takeFatal e w a).status = .halted := rfl
@[simp] theorem State.takeFatal_cause (e : FatalError) (w : Word) (a : Nat) : (s.takeFatal e w a).cause = .fatal e := rfl
@[simp] theorem State.takeFatal_fpc (e : FatalError) (w : Word) (a : Nat) : (s.takeFatal e w a).fpc = s.pc := rfl
@[simp] theorem State.takeFatal_fword (e : FatalError) (w : Word) (a : Nat) : (s.takeFatal e w a).fword = w := rfl
@[simp] theorem State.takeFatal_faddr (e : FatalError) (w : Word) (a : Nat) : (s.takeFatal e w a).faddr = BitVec.ofNat 17 a := rfl
@[simp] theorem State.takeFatal_wait (e : FatalError) (w : Word) (a : Nat) : (s.takeFatal e w a).wait = s.wait := rfl
@[simp] theorem State.takeFatal_progSize (e : FatalError) (w : Word) (a : Nat) : (s.takeFatal e w a).progSize = s.progSize := rfl
@[simp] theorem State.takeFatal_fb (e : FatalError) (w : Word) (a : Nat) : (s.takeFatal e w a).fb = s.fb := rfl
@[simp] theorem State.takeFatal_dirty (e : FatalError) (w : Word) (a : Nat) : (s.takeFatal e w a).dirty = s.dirty := rfl
@[simp] theorem State.takeFatal_mem (e : FatalError) (w : Word) (a : Nat) : (s.takeFatal e w a).mem = s.mem := rfl
@[simp] theorem State.takeFatal_inputs (e : FatalError) (w : Word) (a : Nat) : (s.takeFatal e w a).inputs = s.inputs := rfl
@[simp] theorem State.takeFatal_seq (e : FatalError) (w : Word) (a : Nat) : (s.takeFatal e w a).seq = s.seq := rfl
@[simp] theorem State.takeFatal_events (e : FatalError) (w : Word) (a : Nat) : (s.takeFatal e w a).events = s.events ++ [.fatal e s.pc w (BitVec.ofNat 17 a)] := rfl

/-! ### haltWith -/

@[simp] theorem State.haltWith_v (c : Cause) : (s.haltWith c).v = s.v := rfl
@[simp] theorem State.haltWith_pc (c : Cause) : (s.haltWith c).pc = s.pc := rfl
@[simp] theorem State.haltWith_idx (c : Cause) : (s.haltWith c).idx = s.idx := rfl
@[simp] theorem State.haltWith_sp (c : Cause) : (s.haltWith c).sp = s.sp := rfl
@[simp] theorem State.haltWith_stack (c : Cause) : (s.haltWith c).stack = s.stack := rfl
@[simp] theorem State.haltWith_dt (c : Cause) : (s.haltWith c).dt = s.dt := rfl
@[simp] theorem State.haltWith_st (c : Cause) : (s.haltWith c).st = s.st := rfl
@[simp] theorem State.haltWith_status (c : Cause) : (s.haltWith c).status = .halted := rfl
@[simp] theorem State.haltWith_cause (c : Cause) : (s.haltWith c).cause = c := rfl
@[simp] theorem State.haltWith_fpc (c : Cause) : (s.haltWith c).fpc = s.fpc := rfl
@[simp] theorem State.haltWith_fword (c : Cause) : (s.haltWith c).fword = s.fword := rfl
@[simp] theorem State.haltWith_faddr (c : Cause) : (s.haltWith c).faddr = s.faddr := rfl
@[simp] theorem State.haltWith_wait (c : Cause) : (s.haltWith c).wait = s.wait := rfl
@[simp] theorem State.haltWith_progSize (c : Cause) : (s.haltWith c).progSize = s.progSize := rfl
@[simp] theorem State.haltWith_fb (c : Cause) : (s.haltWith c).fb = s.fb := rfl
@[simp] theorem State.haltWith_dirty (c : Cause) : (s.haltWith c).dirty = s.dirty := rfl
@[simp] theorem State.haltWith_mem (c : Cause) : (s.haltWith c).mem = s.mem := rfl
@[simp] theorem State.haltWith_inputs (c : Cause) : (s.haltWith c).inputs = s.inputs := rfl
@[simp] theorem State.haltWith_seq (c : Cause) : (s.haltWith c).seq = s.seq := rfl
@[simp] theorem State.haltWith_events (c : Cause) : (s.haltWith c).events = s.events := rfl

/-! ### consumeInput -/

@[simp] theorem State.consumeInput_v : (s.consumeInput).v = s.v := rfl
@[simp] theorem State.consumeInput_pc : (s.consumeInput).pc = s.pc := rfl
@[simp] theorem State.consumeInput_idx : (s.consumeInput).idx = s.idx := rfl
@[simp] theorem State.consumeInput_sp : (s.consumeInput).sp = s.sp := rfl
@[simp] theorem State.consumeInput_stack : (s.consumeInput).stack = s.stack := rfl
@[simp] theorem State.consumeInput_dt : (s.consumeInput).dt = s.dt := rfl
@[simp] theorem State.consumeInput_st : (s.consumeInput).st = s.st := rfl
@[simp] theorem State.consumeInput_status : (s.consumeInput).status = s.status := rfl
@[simp] theorem State.consumeInput_cause : (s.consumeInput).cause = s.cause := rfl
@[simp] theorem State.consumeInput_fpc : (s.consumeInput).fpc = s.fpc := rfl
@[simp] theorem State.consumeInput_fword : (s.consumeInput).fword = s.fword := rfl
@[simp] theorem State.consumeInput_faddr : (s.consumeInput).faddr = s.faddr := rfl
@[simp] theorem State.consumeInput_wait : (s.consumeInput).wait = s.wait := rfl
@[simp] theorem State.consumeInput_progSize : (s.consumeInput).progSize = s.progSize := rfl
@[simp] theorem State.consumeInput_fb : (s.consumeInput).fb = s.fb := rfl
@[simp] theorem State.consumeInput_dirty : (s.consumeInput).dirty = s.dirty := rfl
@[simp] theorem State.consumeInput_mem : (s.consumeInput).mem = s.mem := rfl
@[simp] theorem State.consumeInput_inputs : (s.consumeInput).inputs = s.inputs.tail := rfl
@[simp] theorem State.consumeInput_seq : (s.consumeInput).seq = s.seq + 1 := rfl
@[simp] theorem State.consumeInput_events : (s.consumeInput).events = s.events := rfl

/-! ### tick -/

@[simp] theorem State.tick_v : (s.tick).v = s.v := rfl
@[simp] theorem State.tick_pc : (s.tick).pc = s.pc := rfl
@[simp] theorem State.tick_idx : (s.tick).idx = s.idx := rfl
@[simp] theorem State.tick_sp : (s.tick).sp = s.sp := rfl
@[simp] theorem State.tick_stack : (s.tick).stack = s.stack := rfl
@[simp] theorem State.tick_dt : (s.tick).dt = tickTimer s.dt := rfl
@[simp] theorem State.tick_st : (s.tick).st = tickTimer s.st := rfl
@[simp] theorem State.tick_status : (s.tick).status = s.status := rfl
@[simp] theorem State.tick_cause : (s.tick).cause = s.cause := rfl
@[simp] theorem State.tick_fpc : (s.tick).fpc = s.fpc := rfl
@[simp] theorem State.tick_fword : (s.tick).fword = s.fword := rfl
@[simp] theorem State.tick_faddr : (s.tick).faddr = s.faddr := rfl
@[simp] theorem State.tick_wait : (s.tick).wait = s.wait := rfl
@[simp] theorem State.tick_progSize : (s.tick).progSize = s.progSize := rfl
@[simp] theorem State.tick_fb : (s.tick).fb = s.fb := rfl
@[simp] theorem State.tick_dirty : (s.tick).dirty = s.dirty := rfl
@[simp] theorem State.tick_mem : (s.tick).mem = s.mem := rfl
@[simp] theorem State.tick_inputs : (s.tick).inputs = s.inputs := rfl
@[simp] theorem State.tick_seq : (s.tick).seq = s.seq := rfl
@[simp] theorem State.tick_events : (s.tick).events = s.events := rfl

/-! ### beginStep -/

@[simp] theorem State.beginStep_v : (s.beginStep).v = s.v := rfl
@[simp] theorem State.beginStep_pc : (s.beginStep).pc = s.pc := rfl
@[simp] theorem State.beginStep_idx : (s.beginStep).idx = s.idx := rfl
@[simp] theorem State.beginStep_sp : (s.beginStep).sp = s.sp := rfl
@[simp] theorem State.beginStep_stack : (s.beginStep).stack = s.stack := rfl
@[simp] theorem State.beginStep_dt : (s.beginStep).dt = s.dt := rfl
@[simp] theorem State.beginStep_st : (s.beginStep).st = s.st := rfl
@[simp] theorem State.beginStep_status : (s.beginStep).status = s.status := rfl
@[simp] theorem State.beginStep_cause : (s.beginStep).cause = s.cause := rfl
@[simp] theorem State.beginStep_fpc : (s.beginStep).fpc = s.fpc := rfl
@[simp] theorem State.beginStep_fword : (s.beginStep).fword = s.fword := rfl
@[simp] theorem State.beginStep_faddr : (s.beginStep).faddr = s.faddr := rfl
@[simp] theorem State.beginStep_wait : (s.beginStep).wait = s.wait := rfl
@[simp] theorem State.beginStep_progSize : (s.beginStep).progSize = s.progSize := rfl
@[simp] theorem State.beginStep_fb : (s.beginStep).fb = s.fb := rfl
@[simp] theorem State.beginStep_dirty : (s.beginStep).dirty = s.dirty := rfl
@[simp] theorem State.beginStep_mem : (s.beginStep).mem = s.mem := rfl
@[simp] theorem State.beginStep_inputs : (s.beginStep).inputs = s.inputs := rfl
@[simp] theorem State.beginStep_seq : (s.beginStep).seq = s.seq := rfl
@[simp] theorem State.beginStep_events : (s.beginStep).events = [] := rfl

/-! ### The two updates that go through `setV` -/

/-- The whole effect of a flag and result write: only the registers change. -/
theorem State.setFlagThenResult_eq (x : Nibble) (f b : Byte) :
    s.setFlagThenResult x f b = { s with v := (s.setFlagThenResult x f b).v } := rfl

/-- Loading registers changes registers only. -/
theorem State.loadRegs_eq (bs : List Byte) : ∀ (s : State) (k : Nat),
    s.loadRegs k bs = { s with v := (s.loadRegs k bs).v } := by
  induction bs with
  | nil => intro s k; rfl
  | cons b bs ih => intro s k; rw [State.loadRegs, ih]; rfl

/-! ### setFlagThenResult and loadRegs, field by field -/

@[simp] theorem State.setFlagThenResult_pc (x : Nibble) (fl b : Byte) : (s.setFlagThenResult x fl b).pc = s.pc := rfl
@[simp] theorem State.setFlagThenResult_idx (x : Nibble) (fl b : Byte) : (s.setFlagThenResult x fl b).idx = s.idx := rfl
@[simp] theorem State.setFlagThenResult_sp (x : Nibble) (fl b : Byte) : (s.setFlagThenResult x fl b).sp = s.sp := rfl
@[simp] theorem State.setFlagThenResult_stack (x : Nibble) (fl b : Byte) : (s.setFlagThenResult x fl b).stack = s.stack := rfl
@[simp] theorem State.setFlagThenResult_dt (x : Nibble) (fl b : Byte) : (s.setFlagThenResult x fl b).dt = s.dt := rfl
@[simp] theorem State.setFlagThenResult_st (x : Nibble) (fl b : Byte) : (s.setFlagThenResult x fl b).st = s.st := rfl
@[simp] theorem State.setFlagThenResult_status (x : Nibble) (fl b : Byte) : (s.setFlagThenResult x fl b).status = s.status := rfl
@[simp] theorem State.setFlagThenResult_cause (x : Nibble) (fl b : Byte) : (s.setFlagThenResult x fl b).cause = s.cause := rfl
@[simp] theorem State.setFlagThenResult_fpc (x : Nibble) (fl b : Byte) : (s.setFlagThenResult x fl b).fpc = s.fpc := rfl
@[simp] theorem State.setFlagThenResult_fword (x : Nibble) (fl b : Byte) : (s.setFlagThenResult x fl b).fword = s.fword := rfl
@[simp] theorem State.setFlagThenResult_faddr (x : Nibble) (fl b : Byte) : (s.setFlagThenResult x fl b).faddr = s.faddr := rfl
@[simp] theorem State.setFlagThenResult_wait (x : Nibble) (fl b : Byte) : (s.setFlagThenResult x fl b).wait = s.wait := rfl
@[simp] theorem State.setFlagThenResult_progSize (x : Nibble) (fl b : Byte) : (s.setFlagThenResult x fl b).progSize = s.progSize := rfl
@[simp] theorem State.setFlagThenResult_fb (x : Nibble) (fl b : Byte) : (s.setFlagThenResult x fl b).fb = s.fb := rfl
@[simp] theorem State.setFlagThenResult_dirty (x : Nibble) (fl b : Byte) : (s.setFlagThenResult x fl b).dirty = s.dirty := rfl
@[simp] theorem State.setFlagThenResult_mem (x : Nibble) (fl b : Byte) : (s.setFlagThenResult x fl b).mem = s.mem := rfl
@[simp] theorem State.setFlagThenResult_inputs (x : Nibble) (fl b : Byte) : (s.setFlagThenResult x fl b).inputs = s.inputs := rfl
@[simp] theorem State.setFlagThenResult_seq (x : Nibble) (fl b : Byte) : (s.setFlagThenResult x fl b).seq = s.seq := rfl
@[simp] theorem State.setFlagThenResult_events (x : Nibble) (fl b : Byte) : (s.setFlagThenResult x fl b).events = s.events := rfl

@[simp] theorem State.loadRegs_pc (k : Nat) (bs : List Byte) : (s.loadRegs k bs).pc = s.pc := by rw [State.loadRegs_eq]
@[simp] theorem State.loadRegs_idx (k : Nat) (bs : List Byte) : (s.loadRegs k bs).idx = s.idx := by rw [State.loadRegs_eq]
@[simp] theorem State.loadRegs_sp (k : Nat) (bs : List Byte) : (s.loadRegs k bs).sp = s.sp := by rw [State.loadRegs_eq]
@[simp] theorem State.loadRegs_stack (k : Nat) (bs : List Byte) : (s.loadRegs k bs).stack = s.stack := by rw [State.loadRegs_eq]
@[simp] theorem State.loadRegs_dt (k : Nat) (bs : List Byte) : (s.loadRegs k bs).dt = s.dt := by rw [State.loadRegs_eq]
@[simp] theorem State.loadRegs_st (k : Nat) (bs : List Byte) : (s.loadRegs k bs).st = s.st := by rw [State.loadRegs_eq]
@[simp] theorem State.loadRegs_status (k : Nat) (bs : List Byte) : (s.loadRegs k bs).status = s.status := by rw [State.loadRegs_eq]
@[simp] theorem State.loadRegs_cause (k : Nat) (bs : List Byte) : (s.loadRegs k bs).cause = s.cause := by rw [State.loadRegs_eq]
@[simp] theorem State.loadRegs_fpc (k : Nat) (bs : List Byte) : (s.loadRegs k bs).fpc = s.fpc := by rw [State.loadRegs_eq]
@[simp] theorem State.loadRegs_fword (k : Nat) (bs : List Byte) : (s.loadRegs k bs).fword = s.fword := by rw [State.loadRegs_eq]
@[simp] theorem State.loadRegs_faddr (k : Nat) (bs : List Byte) : (s.loadRegs k bs).faddr = s.faddr := by rw [State.loadRegs_eq]
@[simp] theorem State.loadRegs_wait (k : Nat) (bs : List Byte) : (s.loadRegs k bs).wait = s.wait := by rw [State.loadRegs_eq]
@[simp] theorem State.loadRegs_progSize (k : Nat) (bs : List Byte) : (s.loadRegs k bs).progSize = s.progSize := by rw [State.loadRegs_eq]
@[simp] theorem State.loadRegs_fb (k : Nat) (bs : List Byte) : (s.loadRegs k bs).fb = s.fb := by rw [State.loadRegs_eq]
@[simp] theorem State.loadRegs_dirty (k : Nat) (bs : List Byte) : (s.loadRegs k bs).dirty = s.dirty := by rw [State.loadRegs_eq]
@[simp] theorem State.loadRegs_mem (k : Nat) (bs : List Byte) : (s.loadRegs k bs).mem = s.mem := by rw [State.loadRegs_eq]
@[simp] theorem State.loadRegs_inputs (k : Nat) (bs : List Byte) : (s.loadRegs k bs).inputs = s.inputs := by rw [State.loadRegs_eq]
@[simp] theorem State.loadRegs_seq (k : Nat) (bs : List Byte) : (s.loadRegs k bs).seq = s.seq := by rw [State.loadRegs_eq]
@[simp] theorem State.loadRegs_events (k : Nat) (bs : List Byte) : (s.loadRegs k bs).events = s.events := by rw [State.loadRegs_eq]

/-- What a step reads as its inputs depends on the inputs' two fields alone. -/
theorem State.input_congr {s t : State} (hi : t.inputs = s.inputs) (hq : t.seq = s.seq) : t.input = s.input := by
  unfold State.input; rw [hi, hq]

@[simp] theorem State.input_beginStep : s.beginStep.input = s.input := rfl

end Sys2Proof.Machine
end

