-- ==== Sys2Proof/Laws/Registers.lean ====
section
/-! SUPPORT. The register file: a read after a write, the flag and result write of 41_alu.md R120, and the block move of
42_index_memory.md R146. -/

namespace Sys2Proof.Machine

theorem State.getV_setV (s : State) (x r : Nibble) (b : Byte) :
    (s.setV x b).getV r = if r = x then b else s.getV r := by
  unfold State.getV State.setV
  simp only [Vector.getElem_set]
  by_cases h : r = x
  · subst h; simp
  · have : ¬ x.toNat = r.toNat := fun e => h (BitVec.eq_of_toNat_eq e.symm)
    simp [h, this]

@[simp] theorem State.getV_setV_same (s : State) (x : Nibble) (b : Byte) : (s.setV x b).getV x = b := by
  simp [State.getV_setV]

theorem State.getV_setV_other (s : State) {x r : Nibble} (b : Byte) (h : r ≠ x) : (s.setV x b).getV r = s.getV r := by
  simp [State.getV_setV, h]

/-- Reading a register looks at the register file alone. -/
theorem State.getV_congr {s t : State} (h : t.v = s.v) (r : Nibble) : t.getV r = s.getV r := by
  unfold State.getV; simp only [h]

@[simp] theorem State.getV_advance (s : State) (r : Nibble) : s.advance.getV r = s.getV r := rfl
@[simp] theorem State.getV_jump (s : State) (t : Word) (r : Nibble) : (s.jump t).getV r = s.getV r := rfl
@[simp] theorem State.getV_beginStep (s : State) (r : Nibble) : s.beginStep.getV r = s.getV r := rfl

/-- The pc of a skip in plain numbers (40_control_flow.md R100): INSTR_BYTES is 2. -/
theorem State.skipTarget_eq (s : State) (c : Bool) : s.skipTarget c = if c then s.pc + 4 else s.pc + 2 := rfl

/-- The address of a glyph in plain numbers (42_index_memory.md R143): five times the whole value, which never wraps. -/
theorem glyphAddr_toNat (b : Byte) : (glyphAddr b).toNat = b.toNat * 5 := by
  have h := b.isLt
  change (byteToWord b * 5#16).toNat = _
  simp [byteToWord]
  omega

/-- Flag first, result last: the result stays where both go to VF (R120). -/
theorem State.getV_setFlagThenResult (s : State) (x r : Nibble) (f b : Byte) :
    (s.setFlagThenResult x f b).getV r = if r = x then b else if r = vf then f else s.getV r := by
  simp [State.setFlagThenResult, State.getV_setV]

@[simp] theorem State.firstRegs_length (s : State) (x : Nibble) : (s.firstRegs x).length = x.toNat + 1 := by
  simp [State.firstRegs]

theorem State.firstRegs_getElem (s : State) (x : Nibble) {k : Nat} (hk : k < (s.firstRegs x).length) :
    (s.firstRegs x)[k] = s.getV (BitVec.ofNat 4 k) := by simp [State.firstRegs]

/-- What loading registers from number `k` on leaves in each register. -/
theorem State.getV_loadRegs (bs : List Byte) (r : Nibble) : ∀ (s : State) (k : Nat), k + bs.length ≤ 16 →
    (s.loadRegs k bs).getV r =
      if h : k ≤ r.toNat ∧ r.toNat - k < bs.length then bs[r.toNat - k] else s.getV r := by
  induction bs with
  | nil => intro s k _; simp [State.loadRegs]
  | cons b bs ih =>
    intro s k hk
    simp only [List.length_cons] at hk
    have hk16 : (BitVec.ofNat 4 k).toNat = k := by simp; omega
    rw [State.loadRegs, ih _ _ (by omega)]
    by_cases hr : r.toNat = k
    · have hrx : r = BitVec.ofNat 4 k := BitVec.eq_of_toNat_eq (by rw [hk16, hr])
      rw [dif_neg (by omega), dif_pos (by simp; omega)]
      simp [hrx, show k % 16 = k by omega]
    · have hrx : r ≠ BitVec.ofNat 4 k := fun e => hr (by rw [e, hk16])
      by_cases hin : k + 1 ≤ r.toNat ∧ r.toNat - (k + 1) < bs.length
      · rw [dif_pos hin, dif_pos (by simp; omega)]
        have : r.toNat - k = (r.toNat - (k + 1)) + 1 := by omega
        simp [this]
      · rw [dif_neg hin, dif_neg (by simp; omega), State.getV_setV_other _ _ hrx]

end Sys2Proof.Machine
end

