-- ==== Sys2Proof/Laws/Display.lean ====
section
/-! SUPPORT. The framebuffer and the sprite operation: what drawing does to each cell, and when it reports a collision
(43_display.md R162). -/

namespace Sys2Proof.Machine

theorem Framebuffer.cell_setCell (fb : Framebuffer) (c c' : Fin Config.fbWidth) (r r' : Fin Config.fbHeight) (b : Bool) :
    Framebuffer.cell (Framebuffer.setCell fb c r b) c' r' = if c' = c ∧ r' = r then b else Framebuffer.cell fb c' r' := by
  unfold Framebuffer.cell Framebuffer.setCell
  simp only [Fin.getElem_fin, Vector.getElem_set]
  by_cases hr : r' = r
  · subst hr
    by_cases hc : c' = c
    · subst hc; simp
    · simp [hc, Fin.val_ne_of_ne (Ne.symm hc)]
  · simp [hr, Fin.val_ne_of_ne (Ne.symm hr)]

@[simp] theorem Framebuffer.cell_off (c : Fin Config.fbWidth) (r : Fin Config.fbHeight) :
    Framebuffer.cell Framebuffer.off c r = false := by
  simp [Framebuffer.cell, Framebuffer.off]

/-- Two framebuffers with the same cells are the same. -/
theorem Framebuffer.ext_cell {a b : Framebuffer} (h : ∀ c r, Framebuffer.cell a c r = Framebuffer.cell b c r) : a = b := by
  apply Vector.ext
  intro r hr
  apply Vector.ext
  intro c hc
  exact h ⟨c, hc⟩ ⟨r, hr⟩

/-- `new` is `old` complemented exactly when `p`. -/
def FlipsWhen (p : Prop) (old new : Bool) : Prop := (p → new = !old) ∧ (¬ p → new = old)

theorem FlipsWhen.xor {p q : Prop} {a b c : Bool} (h : FlipsWhen p a b) (k : FlipsWhen q b c) (hpq : ¬ (p ∧ q)) :
    FlipsWhen (p ∨ q) a c := by
  by_cases hp : p <;> by_cases hq : q
  · exact absurd ⟨hp, hq⟩ hpq
  · exact ⟨fun _ => by rw [k.2 hq, h.1 hp], fun n => absurd (Or.inl hp) n⟩
  · exact ⟨fun _ => by rw [k.1 hq, h.2 hp], fun n => absurd (Or.inr hq) n⟩
  · exact ⟨fun n => absurd n (by tauto), fun _ => by rw [k.2 hq, h.2 hp]⟩

theorem FlipsWhen.congr {p q : Prop} {a b : Bool} (h : FlipsWhen p a b) (hpq : p ↔ q) : FlipsWhen q a b := by
  rwa [propext hpq] at h

/-- Columns less than 64 apart are different cells. -/
theorem spriteCol_inj {vx : Byte} {k n : Nat} (h : spriteCol vx k = spriteCol vx n) (hk : k < n) (hn : n < 64) : False := by
  have := congrArg Fin.val h
  simp only [spriteCol, Config.fbWidth] at this
  omega

/-- Rows less than 32 apart are different cells. -/
theorem spriteRow_inj {vy : Byte} {k n r : Nat} (h : spriteRow vy (r + k) = spriteRow vy (r + n)) (hk : k < n) (hn : n < 32) :
    False := by
  have := congrArg Fin.val h
  simp only [spriteRow, Config.fbHeight] at this
  omega

/-- One sprite bit. -/
theorem drawBit_cell (c c' : Fin Config.fbWidth) (r r' : Fin Config.fbHeight) (bit : Bool) (p : Framebuffer × Bool) :
    FlipsWhen (bit = true ∧ c' = c ∧ r' = r) (Framebuffer.cell p.1 c' r') (Framebuffer.cell (drawBit c r bit p).1 c' r') := by
  simp only [drawBit, Framebuffer.cell_setCell]
  by_cases h : c' = c ∧ r' = r
  · obtain ⟨rfl, rfl⟩ := h
    cases bit <;> simp [FlipsWhen]
  · rw [if_neg h]
    exact ⟨fun n => absurd n.2 h, fun _ => rfl⟩

/-- The first `n` columns of a sprite byte: which cells change, and when a collision is reported. -/
theorem drawCols (vx : Byte) (r : Fin Config.fbHeight) (b : Byte) (p : Framebuffer × Bool) : ∀ n : Nat, n ≤ 8 →
    (∀ c' r', FlipsWhen (r' = r ∧ ∃ k, k < n ∧ spriteCol vx k = c' ∧ b.getLsbD (7 - k) = true)
      (Framebuffer.cell p.1 c' r')
      (Framebuffer.cell ((List.range n).foldl (fun q c => drawBit (spriteCol vx c) r (b.getLsbD (7 - c)) q) p).1 c' r')) ∧
    (((List.range n).foldl (fun q c => drawBit (spriteCol vx c) r (b.getLsbD (7 - c)) q) p).2 = true ↔
      p.2 = true ∨ ∃ k, k < n ∧ b.getLsbD (7 - k) = true ∧ Framebuffer.cell p.1 (spriteCol vx k) r = true) := by
  intro n
  induction n with
  | zero => intro _; simp [FlipsWhen]
  | succ n ih =>
    intro hn
    obtain ⟨hcell, hcol⟩ := ih (by omega)
    rw [List.range_succ, List.foldl_append, List.foldl_cons, List.foldl_nil]
    generalize (List.range n).foldl (fun q c => drawBit (spriteCol vx c) r (b.getLsbD (7 - c)) q) p = q at hcell hcol ⊢
    constructor
    · intro c' r'
      refine ((hcell c' r').xor (drawBit_cell (spriteCol vx n) c' r r' _ q) ?_).congr ?_
      · rintro ⟨⟨_, k, hk, hc, _⟩, _, hc', _⟩
        exact spriteCol_inj (hc.trans hc') hk (by omega)
      · constructor
        · rintro (⟨hr, k, hk, h⟩ | ⟨hb, hc, hr⟩)
          · exact ⟨hr, k, by omega, h⟩
          · exact ⟨hr, n, by omega, hc.symm, hb⟩
        · rintro ⟨hr, k, hk, hc, hb⟩
          rcases Nat.lt_succ_iff_lt_or_eq.mp hk with hk | rfl
          · exact Or.inl ⟨hr, k, hk, hc, hb⟩
          · exact Or.inr ⟨hb, hc.symm, hr⟩
    · have hsame : Framebuffer.cell q.1 (spriteCol vx n) r = Framebuffer.cell p.1 (spriteCol vx n) r := by
        refine (hcell _ _).2 ?_
        rintro ⟨_, k, hk, hc, _⟩
        exact spriteCol_inj hc hk (by omega)
      simp only [drawBit, Bool.or_eq_true, Bool.and_eq_true, hcol, hsame]
      constructor
      · rintro ((h | ⟨k, hk, h⟩) | h)
        · exact Or.inl h
        · exact Or.inr ⟨k, by omega, h⟩
        · exact Or.inr ⟨n, by omega, h⟩
      · rintro (h | ⟨k, hk, h⟩)
        · exact Or.inl (Or.inl h)
        · rcases Nat.lt_succ_iff_lt_or_eq.mp hk with hk | rfl
          · exact Or.inl (Or.inr ⟨k, hk, h⟩)
          · exact Or.inr h

/-- The rows of a sprite from number `r` on. -/
theorem drawRows_spec (vx vy : Byte) (bs : List Byte) : ∀ (r : Nat) (p : Framebuffer × Bool), bs.length ≤ 32 →
    (∀ c' r', FlipsWhen
      (∃ j, ∃ h : j < bs.length, spriteRow vy (r + j) = r' ∧ ∃ k, k < 8 ∧ spriteCol vx k = c' ∧ bs[j].getLsbD (7 - k) = true)
      (Framebuffer.cell p.1 c' r') (Framebuffer.cell (drawRows vx vy r bs p).1 c' r')) ∧
    ((drawRows vx vy r bs p).2 = true ↔
      p.2 = true ∨ ∃ j, ∃ h : j < bs.length, ∃ k, k < 8 ∧ bs[j].getLsbD (7 - k) = true ∧
        Framebuffer.cell p.1 (spriteCol vx k) (spriteRow vy (r + j)) = true) := by
  induction bs with
  | nil => intro r p _; simp [drawRows, FlipsWhen]
  | cons b bs ih =>
    intro r p hlen
    simp only [List.length_cons] at hlen
    obtain ⟨hcell, hcol⟩ := drawCols vx (spriteRow vy r) b p 8 (Nat.le_refl 8)
    obtain ⟨ihcell, ihcol⟩ := ih (r + 1) (drawByte vx (spriteRow vy r) b p) (by omega)
    change ∀ c' r', FlipsWhen _ _ (Framebuffer.cell (drawByte vx (spriteRow vy r) b p).1 c' r') at hcell
    change (drawByte vx (spriteRow vy r) b p).2 = true ↔ _ at hcol
    rw [drawRows]
    constructor
    · intro c' r'
      refine ((hcell c' r').xor (ihcell c' r') ?_).congr ?_
      · rintro ⟨⟨hr, _⟩, j, hj, hr', _⟩
        refine spriteRow_inj (vy := vy) (r := r) (k := 0) (n := j + 1) ?_ (by omega) (by omega)
        rw [show r + (j + 1) = r + 1 + j by omega, hr', hr, Nat.add_zero]
      · constructor
        · rintro (⟨hr, k, hk, h⟩ | ⟨j, hj, hr, h⟩)
          · exact ⟨0, by simp, by simp [hr], k, hk, h⟩
          · exact ⟨j + 1, by simpa using hj, by rw [← hr]; congr 1; omega, by simpa using h⟩
        · rintro ⟨j, hj, hr, h⟩
          cases j with
          | zero => exact Or.inl ⟨by simpa using hr.symm, by simpa using h⟩
          | succ j =>
            exact Or.inr ⟨j, by simpa using hj, by rw [← hr]; congr 1; omega, by simpa using h⟩
    · have hsame : ∀ j k, j < bs.length →
          Framebuffer.cell (drawByte vx (spriteRow vy r) b p).1 (spriteCol vx k) (spriteRow vy (r + 1 + j)) =
            Framebuffer.cell p.1 (spriteCol vx k) (spriteRow vy (r + 1 + j)) := by
        intro j k hj
        refine (hcell _ _).2 ?_
        rintro ⟨hr, _⟩
        refine spriteRow_inj (vy := vy) (r := r) (k := 0) (n := j + 1) ?_ (by omega) (by omega)
        rw [show r + (j + 1) = r + 1 + j by omega, hr, Nat.add_zero]
      rw [ihcol, hcol]
      constructor
      · rintro ((h | ⟨k, hk, h⟩) | ⟨j, hj, k, hk, hb, h⟩)
        · exact Or.inl h
        · exact Or.inr ⟨0, by simp, k, hk, by simpa using h⟩
        · rw [hsame j k hj] at h
          refine Or.inr ⟨j + 1, by simpa using hj, k, hk, by simpa using hb, ?_⟩
          rwa [show r + (j + 1) = r + 1 + j by omega]
      · rintro (h | ⟨j, hj, k, hk, hb, h⟩)
        · exact Or.inl (Or.inl h)
        · cases j with
          | zero => exact Or.inl (Or.inr ⟨k, hk, by simpa using hb, by simpa using h⟩)
          | succ j =>
            refine Or.inr ⟨j, by simpa using hj, k, hk, by simpa using hb, ?_⟩
            rw [hsame j k (by simpa using hj), show r + 1 + j = r + (j + 1) by omega]
            exact h

/-- Drawing the sprite of DRW in state `s`: every covered cell is complemented and no other. -/
theorem State.drawSprite_cell (s : State) (x y n : Nibble) (c : Fin 64) (r : Fin 32) :
    FlipsWhen (s.SpriteCovers x y n c r) (s.cell c r)
      (Framebuffer.cell (drawSprite (s.getV x) (s.getV y) (readBlock s.mem (s.idx.toNat) n.toNat) s.fb).1 c r) := by
  have hlen : (readBlock s.mem s.idx.toNat n.toNat).length ≤ 32 := by rw [readBlock_length]; have := n.isLt; omega
  refine ((drawRows_spec (s.getV x) (s.getV y) _ 0 (s.fb, false) hlen).1 c r).congr ?_
  simp only [State.SpriteCovers, readBlock_length, readBlock_getElem, spriteRow, spriteCol, Fin.ext_iff, Nat.zero_add,
    State.readByte, Config.fbWidth, Config.fbHeight]
  constructor
  · rintro ⟨j, hj, hr, k, hk, hc, hb⟩; exact ⟨j, k, hj, hk, hc, hr, hb⟩
  · rintro ⟨j, k, hj, hk, hc, hr, hb⟩; exact ⟨j, hj, hr, k, hk, hc, hb⟩

/-- Drawing reports a collision exactly when a covered cell was set. -/
theorem State.drawSprite_collision (s : State) (x y n : Nibble) :
    (drawSprite (s.getV x) (s.getV y) (readBlock s.mem (s.idx.toNat) n.toNat) s.fb).2 = true ↔
      ∃ c r, s.SpriteCovers x y n c r ∧ s.cell c r = true := by
  have hlen : (readBlock s.mem s.idx.toNat n.toNat).length ≤ 32 := by rw [readBlock_length]; have := n.isLt; omega
  have h := (drawRows_spec (s.getV x) (s.getV y) _ 0 (s.fb, false) hlen).2
  simp only [readBlock_length, readBlock_getElem, Nat.zero_add, Bool.false_eq_true, false_or] at h
  rw [show (drawSprite (s.getV x) (s.getV y) (readBlock s.mem s.idx.toNat n.toNat) s.fb).2 =
    (drawRows (s.getV x) (s.getV y) 0 (readBlock s.mem s.idx.toNat n.toNat) (s.fb, false)).2 from rfl, h]
  constructor
  · rintro ⟨j, hj, k, hk, hb, hcell⟩
    exact ⟨spriteCol (s.getV x) k, spriteRow (s.getV y) j, ⟨j, k, hj, hk, rfl, rfl, hb⟩, hcell⟩
  · rintro ⟨c, r, ⟨j, k, hj, hk, hc, hr, hb⟩, hcell⟩
    refine ⟨j, hj, k, hk, hb, ?_⟩
    have h1 : spriteCol (s.getV x) k = c := Fin.ext hc
    have h2 : spriteRow (s.getV y) j = r := Fin.ext hr
    rw [h1, h2]; exact hcell

end Sys2Proof.Machine
end

