-- ==== Sys2Proof/Laws/PerInstr.lean ====
section
/-! SUPPORT. The per-instruction family TableRow: the encoding of every instruction is a word of its own row of the table of
30_encoding.md R83, and the row reads the instruction back from it, with every operand and every ignored bit. -/

namespace Sys2Proof.Laws.TableRow

/-- The encoding of `i` lies in a row of the opcode table, and that row builds `i` from it. -/
def Statement (i : Instr) : Prop :=
  ∃ r ∈ opcodeTable, encode i &&& r.mask = r.pattern ∧ r.build (encode i) = i

/-- Row number `k` of the table is a row of the table. -/
theorem of_row {i : Instr} (k : Nat) (h : k < opcodeTable.length) (hm : encode i &&& opcodeTable[k].mask = opcodeTable[k].pattern)
    (hb : opcodeTable[k].build (encode i) = i) : Statement i := ⟨opcodeTable[k], List.getElem_mem h, hm, hb⟩

theorem cls (ign : Byte) : Statement (.cls ign) :=
  of_row 0 (by decide) (by change encode (.cls ign) &&& 0xF00F = _; rw [and_F00F]; simp only [encode, opField_S4, nField_S4]; rfl)
    (by simp [opcodeTable, encode])
theorem ret (ign : Byte) : Statement (.ret ign) :=
  of_row 1 (by decide) (by change encode (.ret ign) &&& 0xF00F = _; rw [and_F00F]; simp only [encode, opField_S4, nField_S4]; rfl)
    (by simp [opcodeTable, encode])
theorem jp (nnn : Addr12) : Statement (.jp nnn) :=
  of_row 2 (by decide) (by change encode (.jp nnn) &&& 0xF000 = _; rw [and_F000]; simp only [encode, opField_A]; rfl)
    (by simp [opcodeTable, encode])
theorem call (nnn : Addr12) : Statement (.call nnn) :=
  of_row 3 (by decide) (by change encode (.call nnn) &&& 0xF000 = _; rw [and_F000]; simp only [encode, opField_A]; rfl)
    (by simp [opcodeTable, encode])
theorem seImm (x : Nibble) (nn : Byte) : Statement (.seImm x nn) :=
  of_row 4 (by decide) (by change encode (.seImm x nn) &&& 0xF000 = _; rw [and_F000]; simp only [encode, opField_XI]; rfl)
    (by simp [opcodeTable, encode])
theorem sneImm (x : Nibble) (nn : Byte) : Statement (.sneImm x nn) :=
  of_row 5 (by decide) (by change encode (.sneImm x nn) &&& 0xF000 = _; rw [and_F000]; simp only [encode, opField_XI]; rfl)
    (by simp [opcodeTable, encode])
theorem seReg (x : Nibble) (y : Nibble) (ign : Nibble) : Statement (.seReg x y ign) :=
  of_row 6 (by decide) (by change encode (.seReg x y ign) &&& 0xF000 = _; rw [and_F000]; simp only [encode, opField_XYN]; rfl)
    (by simp [opcodeTable, encode])
theorem ldImm (x : Nibble) (nn : Byte) : Statement (.ldImm x nn) :=
  of_row 7 (by decide) (by change encode (.ldImm x nn) &&& 0xF000 = _; rw [and_F000]; simp only [encode, opField_XI]; rfl)
    (by simp [opcodeTable, encode])
theorem addImm (x : Nibble) (nn : Byte) : Statement (.addImm x nn) :=
  of_row 8 (by decide) (by change encode (.addImm x nn) &&& 0xF000 = _; rw [and_F000]; simp only [encode, opField_XI]; rfl)
    (by simp [opcodeTable, encode])
theorem ldReg (x : Nibble) (y : Nibble) : Statement (.ldReg x y) :=
  of_row 9 (by decide) (by change encode (.ldReg x y) &&& 0xF00F = _; rw [and_F00F]; simp only [encode, opField_XYN, nField_XYN]; rfl)
    (by simp [opcodeTable, encode])
theorem orReg (x : Nibble) (y : Nibble) : Statement (.orReg x y) :=
  of_row 10 (by decide) (by change encode (.orReg x y) &&& 0xF00F = _; rw [and_F00F]; simp only [encode, opField_XYN, nField_XYN]; rfl)
    (by simp [opcodeTable, encode])
theorem andReg (x : Nibble) (y : Nibble) : Statement (.andReg x y) :=
  of_row 11 (by decide) (by change encode (.andReg x y) &&& 0xF00F = _; rw [and_F00F]; simp only [encode, opField_XYN, nField_XYN]; rfl)
    (by simp [opcodeTable, encode])
theorem xorReg (x : Nibble) (y : Nibble) : Statement (.xorReg x y) :=
  of_row 12 (by decide) (by change encode (.xorReg x y) &&& 0xF00F = _; rw [and_F00F]; simp only [encode, opField_XYN, nField_XYN]; rfl)
    (by simp [opcodeTable, encode])
theorem addReg (x : Nibble) (y : Nibble) : Statement (.addReg x y) :=
  of_row 13 (by decide) (by change encode (.addReg x y) &&& 0xF00F = _; rw [and_F00F]; simp only [encode, opField_XYN, nField_XYN]; rfl)
    (by simp [opcodeTable, encode])
theorem subReg (x : Nibble) (y : Nibble) : Statement (.subReg x y) :=
  of_row 14 (by decide) (by change encode (.subReg x y) &&& 0xF00F = _; rw [and_F00F]; simp only [encode, opField_XYN, nField_XYN]; rfl)
    (by simp [opcodeTable, encode])
theorem shr (x : Nibble) (y : Nibble) : Statement (.shr x y) :=
  of_row 15 (by decide) (by change encode (.shr x y) &&& 0xF00F = _; rw [and_F00F]; simp only [encode, opField_XYN, nField_XYN]; rfl)
    (by simp [opcodeTable, encode])
theorem subnReg (x : Nibble) (y : Nibble) : Statement (.subnReg x y) :=
  of_row 16 (by decide) (by change encode (.subnReg x y) &&& 0xF00F = _; rw [and_F00F]; simp only [encode, opField_XYN, nField_XYN]; rfl)
    (by simp [opcodeTable, encode])
theorem shl (x : Nibble) (y : Nibble) : Statement (.shl x y) :=
  of_row 17 (by decide) (by change encode (.shl x y) &&& 0xF00F = _; rw [and_F00F]; simp only [encode, opField_XYN, nField_XYN]; rfl)
    (by simp [opcodeTable, encode])
theorem sneReg (x : Nibble) (y : Nibble) (ign : Nibble) : Statement (.sneReg x y ign) :=
  of_row 18 (by decide) (by change encode (.sneReg x y ign) &&& 0xF000 = _; rw [and_F000]; simp only [encode, opField_XYN]; rfl)
    (by simp [opcodeTable, encode])
theorem ldI (nnn : Addr12) : Statement (.ldI nnn) :=
  of_row 19 (by decide) (by change encode (.ldI nnn) &&& 0xF000 = _; rw [and_F000]; simp only [encode, opField_A]; rfl)
    (by simp [opcodeTable, encode])
theorem jpV0 (nnn : Addr12) : Statement (.jpV0 nnn) :=
  of_row 20 (by decide) (by change encode (.jpV0 nnn) &&& 0xF000 = _; rw [and_F000]; simp only [encode, opField_A]; rfl)
    (by simp [opcodeTable, encode])
theorem rnd (x : Nibble) (nn : Byte) : Statement (.rnd x nn) :=
  of_row 21 (by decide) (by change encode (.rnd x nn) &&& 0xF000 = _; rw [and_F000]; simp only [encode, opField_XI]; rfl)
    (by simp [opcodeTable, encode])
theorem drw (x : Nibble) (y : Nibble) (n : Nibble) : Statement (.drw x y n) :=
  of_row 22 (by decide) (by change encode (.drw x y n) &&& 0xF000 = _; rw [and_F000]; simp only [encode, opField_XYN]; rfl)
    (by simp [opcodeTable, encode])
theorem skp (x : Nibble) (ign : Nibble) : Statement (.skp x ign) :=
  of_row 23 (by decide) (by change encode (.skp x ign) &&& 0xF00F = _; rw [and_F00F]; simp only [encode, opField_XYN, nField_XYN]; rfl)
    (by simp [opcodeTable, encode])
theorem sknp (x : Nibble) (ign : Nibble) : Statement (.sknp x ign) :=
  of_row 24 (by decide) (by change encode (.sknp x ign) &&& 0xF00F = _; rw [and_F00F]; simp only [encode, opField_XYN, nField_XYN]; rfl)
    (by simp [opcodeTable, encode])
theorem ldVxDT (x : Nibble) : Statement (.ldVxDT x) :=
  of_row 25 (by decide) (by change encode (.ldVxDT x) &&& 0xF0FF = _; rw [and_F0FF]; simp only [encode, opField_XI, nnField_XI]; rfl)
    (by simp [opcodeTable, encode])
theorem ldVxK (x : Nibble) : Statement (.ldVxK x) :=
  of_row 26 (by decide) (by change encode (.ldVxK x) &&& 0xF0FF = _; rw [and_F0FF]; simp only [encode, opField_XI, nnField_XI]; rfl)
    (by simp [opcodeTable, encode])
theorem ldDTVx (x : Nibble) : Statement (.ldDTVx x) :=
  of_row 27 (by decide) (by change encode (.ldDTVx x) &&& 0xF0FF = _; rw [and_F0FF]; simp only [encode, opField_XI, nnField_XI]; rfl)
    (by simp [opcodeTable, encode])
theorem ldSTVx (x : Nibble) : Statement (.ldSTVx x) :=
  of_row 28 (by decide) (by change encode (.ldSTVx x) &&& 0xF0FF = _; rw [and_F0FF]; simp only [encode, opField_XI, nnField_XI]; rfl)
    (by simp [opcodeTable, encode])
theorem addI (x : Nibble) : Statement (.addI x) :=
  of_row 29 (by decide) (by change encode (.addI x) &&& 0xF0FF = _; rw [and_F0FF]; simp only [encode, opField_XI, nnField_XI]; rfl)
    (by simp [opcodeTable, encode])
theorem ldF (x : Nibble) : Statement (.ldF x) :=
  of_row 30 (by decide) (by change encode (.ldF x) &&& 0xF0FF = _; rw [and_F0FF]; simp only [encode, opField_XI, nnField_XI]; rfl)
    (by simp [opcodeTable, encode])
theorem ldB (x : Nibble) : Statement (.ldB x) :=
  of_row 31 (by decide) (by change encode (.ldB x) &&& 0xF0FF = _; rw [and_F0FF]; simp only [encode, opField_XI, nnField_XI]; rfl)
    (by simp [opcodeTable, encode])
theorem ldMemVx (x : Nibble) : Statement (.ldMemVx x) :=
  of_row 32 (by decide) (by change encode (.ldMemVx x) &&& 0xF0FF = _; rw [and_F0FF]; simp only [encode, opField_XI, nnField_XI]; rfl)
    (by simp [opcodeTable, encode])
theorem ldVxMem (x : Nibble) : Statement (.ldVxMem x) :=
  of_row 33 (by decide) (by change encode (.ldVxMem x) &&& 0xF0FF = _; rw [and_F0FF]; simp only [encode, opField_XI, nnField_XI]; rfl)
    (by simp [opcodeTable, encode])

end Sys2Proof.Laws.TableRow
end

