-- ==== Sys2Proof/Laws/Step.lean ====
section
/-! SUPPORT. Everything a step can do, once (45_execution_loop.md R205), what the end of a step leaves alone, and that the
placing of an instruction makes the next step fetch it. -/

namespace Sys2Proof.Machine

/-- The cases of a step that answers a next state. -/
theorem step_cases {s t : State} (h : step s = .next t) :
    (s.status = .halted ∧ t = s.beginStep.endStep) ∨
    (s.status = .running ∧ s.input.abort = true ∧ t = (s.beginStep.haltWith .abort).endStep) ∨
    (s.status = .running ∧ s.input.abort = false ∧ s.pastEnd = true ∧ t = (s.beginStep.haltWith .endOfProgram).endStep) ∨
    (s.AboutToFetch ∧ ∃ a, s.fetch = .error a ∧ t = (s.beginStep.takeFatal .addressOutOfRange 0 a).endStep) ∨
    (s.AboutToFetch ∧ ∃ w e, s.fetch = .ok w ∧ decode w = .error e ∧ t = (execUnknown w s.beginStep).endStep) ∨
    (s.AboutToFetch ∧ ∃ w i u, s.fetch = .ok w ∧ decode w = .ok i ∧ exec i s.beginStep = .next u ∧ t = u.endStep) := by
  unfold step stepWith at h
  cases hs : s.status with
  | halted => rw [hs] at h; injection h with h; exact .inl ⟨rfl, h.symm⟩
  | running =>
    rw [hs] at h
    simp only at h
    by_cases ha : s.input.abort = true
    · rw [if_pos ha] at h; injection h with h; exact .inr (.inl ⟨rfl, ha, h.symm⟩)
    · rw [if_neg ha] at h
      have ha' : s.input.abort = false := by simpa using ha
      by_cases hp : s.pastEnd = true
      · rw [if_pos hp] at h; injection h with h; exact .inr (.inr (.inl ⟨rfl, ha', hp, h.symm⟩))
      · rw [if_neg hp] at h
        have hb : s.AboutToFetch := ⟨hs, ha', by simpa using hp⟩
        refine .inr (.inr (.inr ?_))
        cases hf : s.fetch with
        | error a => rw [hf] at h; injection h with h; exact .inl ⟨hb, a, rfl, h.symm⟩
        | ok w =>
          rw [hf] at h
          simp only at h
          cases hd : decode w with
          | error e => rw [hd] at h; injection h with h; exact .inr (.inl ⟨hb, w, e, rfl, hd, h.symm⟩)
          | ok i =>
            rw [hd] at h
            simp only at h
            cases hx : exec i s.beginStep with
            | next u => rw [hx] at h; injection h with h; exact .inr (.inr ⟨hb, w, i, u, rfl, hd, hx, h.symm⟩)
            | fault f => rw [hx] at h; cases h
            | refused r => rw [hx] at h; cases h

/-- A run goes on from the next state of its first step. -/
theorem run_succ {M : Host.Core} {k : Nat} {s t : M.State} (h : M.step s = .next t) : M.run (k + 1) s = M.run k t := by
  simp only [Host.Core.run, h]

/-- The same for this machine, in its own names. -/
theorem core_run_succ {k : Nat} {s t : State} (h : step s = .next t) :
    Host.Core.run Sys2Proof.core (k + 1) s = Host.Core.run Sys2Proof.core k t := run_succ (M := Sys2Proof.core) h

/-- Ticks change the two timers and nothing else. -/
theorem State.ticks_frame (n : Nat) : ∀ s : State,
    State.ticks n s = { s with dt := (State.ticks n s).dt, st := (State.ticks n s).st } := by
  induction n with
  | zero => intro s; rfl
  | succ n ih => intro s; rw [State.ticks, ih]; rfl

/-- Present changes DIRTY and the events and nothing else. -/
theorem State.present_frame (s : State) : s.present = { s with dirty := false, events := s.present.events } := by
  unfold State.present
  cases h : s.dirty with
  | true => rfl
  | false => rw [if_neg (by simp), ← h]

@[simp] theorem State.present_dirty (s : State) : s.present.dirty = false := by rw [State.present_frame]

/-- The boundary changes DIRTY, the events and the timers and nothing else. -/
theorem State.boundary_frame (s : State) : s.boundary =
    { s with dt := s.boundary.dt, st := s.boundary.st, dirty := s.boundary.dirty, events := s.boundary.events } := by
  unfold State.boundary
  split
  · split
    · rw [State.present_frame]
    · rw [State.ticks_frame, State.present_frame]
  · rfl

/-- The end of a step changes those and the step's inputs and nothing else. -/
theorem State.endStep_frame (s : State) : s.endStep =
    { s with dt := s.endStep.dt, st := s.endStep.st, dirty := s.endStep.dirty, events := s.endStep.events,
             inputs := s.inputs.tail, seq := s.seq + 1 } := by
  unfold State.endStep State.consumeInput
  rw [State.boundary_frame]

/-- A halted engine's step ends with nothing but its inputs used up. -/
theorem State.endStep_of_halted {s : State} (h : s.status = .halted) : s.endStep = s.consumeInput := by
  simp [State.endStep, State.boundary, h]

/-- After a step that leaves the engine Running, DIRTY is clear (R204). -/
theorem State.endStep_dirty_of_running {s : State} (h : s.status = .running) : s.endStep.dirty = false := by
  simp only [State.endStep, State.consumeInput_dirty, State.boundary, h, if_true]
  split
  · simp
  · rw [State.ticks_frame]; simp

/-- The word that two bytes cut from it make again (20_memory.md R54). -/
theorem wordOfBytes_hi_lo (w : Word) : wordOfBytes (hiByte w) (loByte w) = w := by
  apply BitVec.eq_of_getLsbD_eq
  intro i hi
  simp only [wordOfBytes, hiByte, loByte, BitVec.getLsbD_append, BitVec.getLsbD_extractLsb']
  by_cases h : i < 8
  · simp [h]
  · simp [h, show i - 8 < 8 by omega, show 8 + (i - 8) = i by omega]

/-- The placing of an instruction makes the very next step fetch it: the engine is about to fetch, and it fetches the word of
the given bits. -/
theorem State.withFetchWord_fetches (s : State) (nbits w : Nat) (hm : Memory.wf s.mem = true) :
    (s.withFetchWord nbits w).AboutToFetch ∧ (s.withFetchWord nbits w).fetch = .ok (tableWord nbits w) := by
  have hpc : s.fetchablePc.toNat + 1 < 4096 := by
    unfold State.fetchablePc Config.memSize
    split
    · assumption
    · simp [Config.progBase]
  refine ⟨⟨rfl, ?_, ?_⟩, ?_⟩
  · simp only [State.withFetchWord, State.readyToFetch, State.input, State.inputWithoutAbort]
    split <;> rfl
  · apply decide_eq_false
    change ¬ (s.withFetchWord nbits w).progLimit < s.fetchablePc.toNat
    by_cases hl : s.progLimit < s.fetchablePc.toNat
    · have h : (s.withFetchWord nbits w).progSize = BitVec.ofNat 12 Config.maxProg := if_pos hl
      have : (s.withFetchWord nbits w).progLimit = 4096 := by rw [State.progLimit, h]; rfl
      omega
    · have h : (s.withFetchWord nbits w).progSize = s.progSize := if_neg hl
      rwa [State.progLimit, h]
  · change memRead2 (writeBlock s.mem s.fetchablePc.toNat [_, _]) s.fetchablePc.toNat = _
    rw [memRead2_ok hpc]
    have h0 := peek_writeBlock_at (bs := [hiByte (tableWord nbits w), loByte (tableWord nbits w)]) (m := s.mem)
      (a := s.fetchablePc.toNat) (k := 0) (by simp [Config.memSize]; omega) hm (by simp)
    have h1 := peek_writeBlock_at (bs := [hiByte (tableWord nbits w), loByte (tableWord nbits w)]) (m := s.mem)
      (a := s.fetchablePc.toNat) (k := 1) (by simp [Config.memSize]; omega) hm (by simp)
    rw [Nat.add_zero] at h0
    rw [h0, h1]
    simp [wordOfBytes_hi_lo]

end Sys2Proof.Machine
end

