-- ==== Sys2Proof/Tests/Slice0.lean ====
section
/-! SUPPORT. Tests of one step each, with the expected results of spec/95_test_vectors.md (the vector's name stands before each),
the decoding of words written out from 30_encoding.md R76, the smoke tests of WellFormed, and a witness for every statement that has
hypotheses. -/

namespace Sys2Proof.Tests

open Sys2Proof Sys2Proof.Machine

/-! ### Helpers -/

/-- A host that asks for nothing. -/
def idle : StepInput := { abort := false, keys := 0, keyEvt := none, rnd := 0, ticks := 0 }

/-- The start state of the vectors: reset, PROG_SIZE 3584, the word placed at pc, an idle host. -/
def start (pc w : Nat) : State :=
  { State.reset with
    pc := BitVec.ofNat 16 pc
    progSize := 3584
    mem := writeBlock [] pc (encodeWord w)
    inputs := [idle] }
where
  encodeWord (w : Nat) : List Byte := [BitVec.ofNat 8 (w / 256), BitVec.ofNat 8 (w % 256)]

/-- A state with some registers set. -/
def withV (s : State) (l : List (Nibble × Byte)) : State := l.foldl (fun t p => t.setV p.1 p.2) s

/-- A state with some bytes of memory set. -/
def withMem (s : State) (a : Nat) (bs : List Byte) : State := { s with mem := writeBlock s.mem a bs }

/-- A state with some cells of the framebuffer on. -/
def withFb (s : State) (l : List (Fin 64 × Fin 32)) : State :=
  { s with fb := l.foldl (fun fb p => Framebuffer.setCell fb p.1 p.2 true) s.fb }

/-- A state whose stack holds one address in slot `k`, with SP = k + 1. -/
def withTop (s : State) (k : Fin 16) (a : Word) : State :=
  { s with stack := s.stack.set k.val a k.isLt, sp := BitVec.ofNat 5 (k.val + 1) }

/-- The next state of one step has a property. -/
def after (s : State) (p : State → Bool) : Bool :=
  match step s with
  | .next t => p t
  | .fault _ => false
  | .refused _ => false

/-- The next state of one instruction has a property. -/
def runs (i : Instr) (s : State) (p : State → Bool) : Bool :=
  match exec i s with
  | .next t => p t
  | .fault _ => false
  | .refused _ => false

/-! ### WellFormed refuses an ill-formed term for each check -/

theorem test_wf_cls : (Instr.cls 0x12).wellFormed = false ∧ (Instr.cls 0x0E).wellFormed = true := by decide
theorem test_wf_ret : (Instr.ret 0xAB).wellFormed = false ∧ (Instr.ret 0x0E).wellFormed = true := by decide
theorem test_wf_seReg : (Instr.seReg 1 2 0xF).wellFormed = false ∧ (Instr.seReg 1 2 0).wellFormed = true := by decide
theorem test_wf_sneReg : (Instr.sneReg 1 2 1).wellFormed = false ∧ (Instr.sneReg 1 2 0).wellFormed = true := by decide
theorem test_wf_skp : (Instr.skp 4 0xF).wellFormed = false ∧ (Instr.skp 4 9).wellFormed = true := by decide
theorem test_wf_sknp : (Instr.sknp 4 9).wellFormed = false ∧ (Instr.sknp 4 0xA).wellFormed = true := by decide

/-! ### Decoding: every constructor from a word written out from R76, `op x y n` nibble by nibble -/

theorem test_decode_control_flow :
    decode 0b0000000011101110 = .ok (.ret 0b00001110) ∧
    decode 0b0001101010111100 = .ok (.jp 0b101010111100) ∧
    decode 0b0010101010111100 = .ok (.call 0b101010111100) ∧
    decode 0b0011111100000001 = .ok (.seImm 0b1111 0b00000001) ∧
    decode 0b0100001111111111 = .ok (.sneImm 0b0011 0b11111111) ∧
    decode 0b0101000100100000 = .ok (.seReg 0b0001 0b0010 0b0000) ∧
    decode 0b1001101010110000 = .ok (.sneReg 0b1010 0b1011 0b0000) ∧
    decode 0b1011001000010000 = .ok (.jpV0 0b001000010000) := by decide

theorem test_decode_alu :
    decode 0b0110111100101100 = .ok (.ldImm 0b1111 0b00101100) ∧
    decode 0b0111001000000001 = .ok (.addImm 0b0010 0b00000001) ∧
    decode 0b1000101010110000 = .ok (.ldReg 0b1010 0b1011) ∧
    decode 0b1000101010110001 = .ok (.orReg 0b1010 0b1011) ∧
    decode 0b1000101010110010 = .ok (.andReg 0b1010 0b1011) ∧
    decode 0b1000101010110011 = .ok (.xorReg 0b1010 0b1011) ∧
    decode 0b1000101010110100 = .ok (.addReg 0b1010 0b1011) ∧
    decode 0b1000101010110101 = .ok (.subReg 0b1010 0b1011) ∧
    decode 0b1000101010110110 = .ok (.shr 0b1010 0b1011) ∧
    decode 0b1000101010110111 = .ok (.subnReg 0b1010 0b1011) ∧
    decode 0b1000101010111110 = .ok (.shl 0b1010 0b1011) ∧
    decode 0b1100001100001111 = .ok (.rnd 0b0011 0b00001111) := by decide

theorem test_decode_index_memory :
    decode 0b1010111111111111 = .ok (.ldI 0b111111111111) ∧
    decode 0b1111000100011110 = .ok (.addI 0b0001) ∧
    decode 0b1111000000101001 = .ok (.ldF 0b0000) ∧
    decode 0b1111000100110011 = .ok (.ldB 0b0001) ∧
    decode 0b1111010101010101 = .ok (.ldMemVx 0b0101) ∧
    decode 0b1111010101100101 = .ok (.ldVxMem 0b0101) := by decide

theorem test_decode_display :
    decode 0b0000000011100000 = .ok (.cls 0b00001110) ∧
    decode 0b1101000100100011 = .ok (.drw 0b0001 0b0010 0b0011) := by decide

theorem test_decode_keys_timers :
    decode 0b1110010010011110 = .ok (.skp 0b0100 0b1001) ∧
    decode 0b1110010010100001 = .ok (.sknp 0b0100 0b1010) ∧
    decode 0b1111010100000111 = .ok (.ldVxDT 0b0101) ∧
    decode 0b1111001100001010 = .ok (.ldVxK 0b0011) ∧
    decode 0b1111010100010101 = .ok (.ldDTVx 0b0101) ∧
    decode 0b1111010100011000 = .ok (.ldSTVx 0b0101) := by decide

/-- 2.1: words with ignored bits. -/
theorem test_decode_ignored_bits :
    decode 0x0000 = .ok (.cls 0) ∧ decode 0x0FF0 = .ok (.cls 0xFF) ∧ decode 0x000E = .ok (.ret 0) ∧
    decode 0x5121 = .ok (.seReg 1 2 1) ∧ decode 0x9ABF = .ok (.sneReg 0xA 0xB 0xF) ∧
    decode 0xE0FE = .ok (.skp 0 0xF) ∧ decode 0xE001 = .ok (.sknp 0 0) := by decide

/-- 2.1: words that select no handler, in each group that has them. -/
theorem test_decode_unknown :
    [0x00E1, 0x0001, 0x00FF, 0x00FD, 0x00C5, 0x8AB8, 0x8AB9, 0x8ABA, 0x8ABB, 0x8ABC, 0x8ABD, 0x8ABF, 0xE09F, 0xE0A0, 0xE000,
      0xF00B, 0xF0FF, 0xF075, 0xF085, 0xF090, 0xF020, 0xFFFF, 0xF000].all
      (fun w : Word => decide (decode w = .error (.unknownOpcode w))) = true := by decide

/-- R54: the byte at the lower address is w[15:8]. -/
theorem test_encode_bytes : encodeBytes (.call 0x20A) = [0x22, 0x0A] ∧ encode (.ret 0xAB) = 0x0ABE := by decide

/-- The host's own form of a word decodes to its row. -/
theorem test_decode_table_word : decodeTableWord 16 0xF533 = some (.ldB 5) ∧ decodeTableWord 16 0x8AB9 = none := by decide

/-! ### Control flow -/

/-- CF4. -/
theorem test_ret : after (withTop (start 0x20C 0x0ABE) 0 0x204) (fun t => t.pc == 0x206 && t.sp == 0) = true := by decide
/-- S3: underflow. -/
theorem test_ret_underflow : after (start 0x200 0x00EE) (fun t =>
    t.status == .halted && t.cause == .fatal .stackUnderflow && t.fpc == 0x200 && t.fword == 0x00EE && t.pc == 0x200 &&
    t.events == [.fatal .stackUnderflow 0x200 0x00EE 0]) = true := by decide
/-- S1. -/
theorem test_jp : after (start 0x200 0x1ABC) (fun t => t.pc == 0xABC) = true := by decide
/-- CF1. -/
theorem test_call : after { start 0x456 0x2ABC with sp := 15 } (fun t =>
    t.pc == 0xABC && t.sp == 16 && t.stack[15] == 0x456) = true := by decide
/-- CF2. -/
theorem test_call_overflow : after { start 0x456 0x2ABC with sp := 16 } (fun t =>
    t.cause == .fatal .stackOverflow && t.fpc == 0x456 && t.fword == 0x2ABC && t.faddr == 0 && t.sp == 16 && t.pc == 0x456) = true := by
  decide
/-- CF5. -/
theorem test_seImm_skips : after (withV (start 0x210 0x3F01) [(0xF, 1)]) (fun t => t.pc == 0x214) = true := by decide
/-- CF17: the skip from the last address that can be fetched. -/
theorem test_seImm_last : after (start 0xFFE 0x3000) (fun t => t.pc == 0x1002) = true := by decide
/-- CF7. -/
theorem test_sneImm_stays : after (start 0x210 0x4300) (fun t => t.pc == 0x212) = true := by decide
/-- CF8. -/
theorem test_sneImm_skips : after (start 0x210 0x43FF) (fun t => t.pc == 0x214) = true := by decide
/-- CF10. -/
theorem test_seReg_skips : after (withV (start 0x200 0x5121) [(1, 9), (2, 9)]) (fun t => t.pc == 0x204) = true := by decide
/-- CF11. -/
theorem test_seReg_stays : after (withV (start 0x200 0x512F) [(1, 9), (2, 8)]) (fun t => t.pc == 0x202) = true := by decide
/-- CF12. -/
theorem test_sneReg_same : after (withV (start 0x200 0x9440) [(4, 0x77)]) (fun t => t.pc == 0x202) = true := by decide
/-- CF13. -/
theorem test_sneReg_skips : after (withV (start 0x200 0x9ABF) [(0xA, 1), (0xB, 2)]) (fun t => t.pc == 0x204) = true := by decide
/-- CF14. -/
theorem test_jpV0 : after (withV (start 0x200 0xB210) [(0, 4), (2, 0x80)]) (fun t => t.pc == 0x214) = true := by decide
/-- CF15. -/
theorem test_jpV0_max : after (withV (start 0x200 0xBFFF) [(0, 0xFF)]) (fun t => t.pc == 0x10FE) = true := by decide

/-! ### Registers and arithmetic -/

/-- AL1. -/
theorem test_ldImm : after (start 0x200 0x6F2C) (fun t => t.getV 0xF == 0x2C && t.pc == 0x202) = true := by decide
/-- AL2. -/
theorem test_addImm : after (withV (start 0x200 0x7201) [(2, 0xFF), (0xF, 0x55)]) (fun t => t.getV 2 == 0 && t.getV 0xF == 0x55) = true := by
  decide
/-- R123. -/
theorem test_ldReg : after (withV (start 0x200 0x8120) [(1, 7), (2, 9)]) (fun t => t.getV 1 == 9 && t.getV 2 == 9) = true := by decide
/-- AL5. -/
theorem test_orReg : after (withV (start 0x200 0x8121) [(1, 0xF0), (2, 0x0F), (0xF, 0x77)]) (fun t =>
    t.getV 1 == 0xFF && t.getV 0xF == 0x77) = true := by decide
/-- AL6. -/
theorem test_andReg : after (withV (start 0x200 0x8122) [(1, 0xF0), (2, 0x3C), (0xF, 1)]) (fun t =>
    t.getV 1 == 0x30 && t.getV 0xF == 1) = true := by decide
/-- AL7. -/
theorem test_xorReg : after (withV (start 0x200 0x8113) [(1, 0xA5)]) (fun t => t.getV 1 == 0) = true := by decide
/-- S4. -/
theorem test_addReg : after (withV (start 0x200 0x8124) [(1, 0xFF), (2, 1)]) (fun t => t.getV 1 == 0 && t.getV 0xF == 1) = true := by decide
/-- AL10: the result stays in VF. -/
theorem test_addReg_vf : after (withV (start 0x200 0x8F14) [(0xF, 0x10), (1, 0xF8)]) (fun t => t.getV 0xF == 0x08) = true := by decide
/-- AL13. -/
theorem test_subReg_equal : after (withV (start 0x200 0x8125) [(1, 5), (2, 5)]) (fun t => t.getV 1 == 0 && t.getV 0xF == 1) = true := by
  decide
/-- AL17: the old VF is the operand. -/
theorem test_subReg_vf : after (withV (start 0x200 0x81F5) [(1, 5), (0xF, 9)]) (fun t => t.getV 1 == 0xFC && t.getV 0xF == 0) = true := by
  decide
/-- AL25. -/
theorem test_shr : after (withV (start 0x200 0x8126) [(1, 4), (2, 0xAA), (0xF, 1)]) (fun t =>
    t.getV 1 == 2 && t.getV 2 == 0xAA && t.getV 0xF == 0) = true := by decide
/-- AL24. -/
theorem test_shr_logical : after (withV (start 0x200 0x8106) [(1, 0xFF)]) (fun t => t.getV 1 == 0x7F && t.getV 0xF == 1) = true := by decide
/-- AL18. -/
theorem test_subnReg : after (withV (start 0x200 0x8127) [(1, 2), (2, 1), (0xF, 1)]) (fun t => t.getV 1 == 0xFF && t.getV 0xF == 0) = true := by
  decide
/-- AL21. -/
theorem test_subnReg_vf : after (withV (start 0x200 0x8F17) [(0xF, 5), (1, 3)]) (fun t => t.getV 0xF == 0xFE) = true := by decide
/-- AL28. -/
theorem test_shl : after (withV (start 0x200 0x810E) [(1, 0x7F), (0xF, 1)]) (fun t => t.getV 1 == 0xFE && t.getV 0xF == 0) = true := by decide
/-- AL31. -/
theorem test_shl_vf : after (withV (start 0x200 0x8F0E) [(0xF, 0x81)]) (fun t => t.getV 0xF == 0x02) = true := by decide
/-- AL33. -/
theorem test_rnd : after { start 0x200 0xC30F with inputs := [{ idle with rnd := 0xB7 }] } (fun t => t.getV 3 == 0x07) = true := by decide

/-! ### Index register and memory -/

/-- IM1. -/
theorem test_ldI : after (start 0x200 0xAFFF) (fun t => t.idx == 0xFFF) = true := by decide
/-- IM2. -/
theorem test_addI : after { withV (start 0x200 0xF11E) [(1, 1), (0xF, 0x33)] with idx := 0xFFF } (fun t =>
    t.idx == 0x1000 && t.getV 0xF == 0x33) = true := by decide
/-- IM3. -/
theorem test_addI_wraps : after { withV (start 0x200 0xF11E) [(1, 2)] with idx := 0xFFFF } (fun t => t.idx == 1) = true := by decide
/-- IM7. -/
theorem test_ldF : after (withV (start 0x200 0xF029) [(0, 0x10)]) (fun t => t.idx == 0x50) = true := by decide
/-- S6. -/
theorem test_ldB : after { withV (start 0x200 0xF133) [(1, 157)] with idx := 0x300 } (fun t =>
    t.readByte 0x300 == 1 && t.readByte 0x301 == 5 && t.readByte 0x302 == 7 && t.idx == 0x300) = true := by decide
/-- IM16. -/
theorem test_ldB_fault : after { withV (start 0x200 0xF133) [(1, 123)] with idx := 0xFFFF } (fun t =>
    t.cause == .fatal .addressOutOfRange && t.faddr == 0xFFFF && t.fword == 0xF133) = true := by decide
/-- IM17. -/
theorem test_ldMemVx : after { withV (start 0x200 0xF055) [(0, 0xAB), (1, 0xCD)] with idx := 0x300 } (fun t =>
    t.readByte 0x300 == 0xAB && t.readByte 0x301 == 0) = true := by decide
/-- IM19: none of the bytes in range is written. -/
theorem test_ldMemVx_fault : after { withV (start 0x200 0xFF55) [(0, 0x10)] with idx := 0xFF1 } (fun t =>
    t.cause == .fatal .addressOutOfRange && t.faddr == 0x1000 && t.readByte 0xFF1 == 0) = true := by decide
/-- IM21. -/
theorem test_ldVxMem : after { withV (withMem (start 0x200 0xF165) 0xFFE [0x55, 0x66]) [(2, 3)] with idx := 0xFFE } (fun t =>
    t.getV 0 == 0x55 && t.getV 1 == 0x66 && t.getV 2 == 3) = true := by decide
/-- IM23: the first glyph byte of the font. -/
theorem test_ldVxMem_font : after (start 0x200 0xF065) (fun t => t.getV 0 == 0xF0) = true := by decide

/-! ### Display -/

/-- DP1. -/
theorem test_cls : after (withFb (start 0x200 0x00E0) [(0, 0), (10, 5), (63, 31)]) (fun t =>
    decide (t.fb = Framebuffer.off) && t.events == [.present Framebuffer.off] && t.dirty == false) = true := by decide
/-- DP5: the sprite wraps at the right edge. -/
theorem test_drw : after { withV (withMem (start 0x200 0xD011) 0x300 [0xC0]) [(0, 63)] with idx := 0x300 } (fun t =>
    decide (t.fb = (withFb State.reset [(63, 0), (0, 0)]).fb) && t.getV 0xF == 0 && t.events == [.present t.fb]) = true := by decide
/-- DP9. -/
theorem test_drw_collision : after { withFb (withMem (start 0x200 0xD011) 0x300 [0xC0]) [(0, 0)] with idx := 0x300 } (fun t =>
    decide (t.fb = (withFb State.reset [(1, 0)]).fb) && t.getV 0xF == 1) = true := by decide

/-! ### Keys and timers -/

/-- KT1. -/
theorem test_skp : after { withV (start 0x220 0xE49E) [(4, 0xA)] with inputs := [{ idle with keys := 0x0400 }] } (fun t =>
    t.pc == 0x224) = true := by decide
/-- KT3. -/
theorem test_skp_no_key : after { withV (start 0x220 0xE49E) [(4, 0x10)] with inputs := [{ idle with keys := 0xFFFF }] } (fun t =>
    t.pc == 0x222) = true := by decide
/-- KT5. -/
theorem test_sknp_no_key : after { withV (start 0x220 0xE4A1) [(4, 0x1A)] with inputs := [{ idle with keys := 0xFFFF }] } (fun t =>
    t.pc == 0x224) = true := by decide
/-- KT6. -/
theorem test_sknp : after { withV (start 0x220 0xE4A1) [(4, 0xA)] with inputs := [{ idle with keys := 0x0400 }] } (fun t =>
    t.pc == 0x222) = true := by decide
/-- KT9: a key that is held is no event, and the ticks are lost. -/
theorem test_ldVxK_waits : after { start 0x230 0xF30A with dt := 5, inputs := [{ idle with keys := 0x80, ticks := 3 }] } (fun t =>
    t.wait == true && t.pc == 0x230 && t.dt == 5 && t.getV 3 == 0) = true := by decide
/-- KT10. -/
theorem test_ldVxK_takes :
    after { start 0x230 0xF30A with dt := 5, wait := true, inputs := [{ idle with keyEvt := some 7, ticks := 2 }] } (fun t =>
    t.wait == false && t.pc == 0x232 && t.dt == 3 && t.getV 3 == 7) = true := by decide
/-- KT15: the tick comes after the read. -/
theorem test_ldVxDT : after { start 0x200 0xF507 with dt := 7, inputs := [{ idle with ticks := 1 }] } (fun t =>
    t.getV 5 == 7 && t.dt == 6) = true := by decide
/-- KT16. -/
theorem test_ldDTVx : after { withV (start 0x200 0xF515) [(5, 60)] with inputs := [{ idle with ticks := 1 }] } (fun t =>
    t.dt == 59) = true := by decide
/-- KT18. -/
theorem test_ldSTVx : after (withV (start 0x200 0xF518) [(5, 4)]) (fun t => t.st == 4 && t.soundOn) = true := by decide

/-- P3: glyph 5 of the default FONT stands at 0x019. -/
theorem test_default_font : readBlock State.reset.mem 0x19 Config.glyphBytes = [0xF0, 0x80, 0xF0, 0x10, 0xF0] := by decide
/-- R7: the reserved range ends where the program begins, the font lies inside it, and MAX_PROG is what is left. -/
theorem test_constants : Config.reservedLast + 1 = Config.progBase ∧ Config.reservedFirst = Config.fontBase ∧
    Config.fontBase + Config.nGlyph * Config.glyphBytes ≤ Config.reservedLast ∧ Config.maxProg = 3584 := by decide

/-! ### The loop -/

/-- LP1. -/
theorem test_halted :
    after { start 0x200 0x00E0 with
      status := .halted, cause := .endOfProgram, dt := 5, inputs := [{ idle with abort := true, ticks := 3 }] } (fun t =>
    t.cause == .endOfProgram && t.dt == 5 && t.events == [] && t.pc == 0x200) = true := by decide
/-- LP2. -/
theorem test_abort_first : after { start 0xFFE 0 with progSize := 2, inputs := [{ idle with abort := true }] } (fun t =>
    t.status == .halted && t.cause == .abort) = true := by decide
/-- LP3, LP4: the strict sign. -/
theorem test_end_of_program : after { start 0x204 0 with progSize := 4 } (fun t => t.status == .running && t.pc == 0x206) = true ∧
    after { start 0x205 0 with progSize := 4 } (fun t => t.cause == .endOfProgram && t.pc == 0x205 && t.events == []) = true := by decide
/-- LP8: the second byte of the fetch. -/
theorem test_fetch_fault : after { State.reset with progSize := 3583, pc := 0xFFF, mem := [(0xFFF, 0x12)], inputs := [idle] } (fun t =>
    t.cause == .fatal .addressOutOfRange && t.fpc == 0xFFF && t.fword == 0 && t.faddr == 0x1000) = true := by decide
/-- LP14. -/
theorem test_unknown : after { start 0x240 0xF0FF with dt := 2, inputs := [{ idle with ticks := 1 }] } (fun t =>
    t.status == .running && t.pc == 0x242 && t.dt == 1 && t.events == [.unknownOpcode 0xF0FF 0x240]) = true := by decide
/-- LP16: no tick after a fault. -/
theorem test_no_tick_after_fault : after { start 0x200 0x00EE with dt := 2, inputs := [{ idle with ticks := 1 }] } (fun t =>
    t.cause == .fatal .stackUnderflow && t.dt == 2) = true := by decide
/-- LP17: no alignment. -/
theorem test_odd_pc : after (start 0x201 0x6001) (fun t => t.getV 0 == 1 && t.pc == 0x203) = true := by decide
/-- LP18: the engine after reset, with nothing loaded, runs the zero word as CLS (log entry 3). -/
theorem test_empty_program : after { State.reset with inputs := [idle] } (fun t =>
    t.pc == 0x202 && t.events == [.present Framebuffer.off]) = true := by decide
/-- What `withFetchWord` places, the next step runs, from reset and from an engine that has halted. -/
theorem test_withFetchWord : after (State.reset.withFetchWord 16 0x6142) (fun t => t.getV 1 == 0x42 && t.pc == 0x202) = true ∧
    after ({ State.reset with status := .halted, cause := .abort, pc := 0xFFFF }.withFetchWord 16 0x6142) (fun t =>
      t.getV 1 == 0x42) = true := by decide
/-- R227. -/
theorem test_codes : causeCode (.fatal .stackOverflow) = 0x11 ∧ loadErrorCode .romReadFailure = 0x21 := by decide

/-! ### Witnesses: concrete states and operands that meet the hypotheses of a statement together -/

theorem witness_EncodeDecodeRoundTrip : decode 0x8126 = .ok (.shr 1 2) := by decide

theorem witness_DecodeFollowsOpcodeTable :
    (∃ r ∈ opcodeTable, (0xE4A1 : Word) &&& r.mask = r.pattern) ∧ ∀ r ∈ opcodeTable, (0xE4A2 : Word) &&& r.mask ≠ r.pattern := by
  refine ⟨?_, ?_⟩ <;> unfold opcodeTable <;> simp

theorem witness_FieldsOfTheWord : (0xD123 : Word) = wordOfBytes 0xD1 0x23 := by decide

/-- Each address at which a clause begins or ends. -/
theorem witness_MemReadContract : memRead2 [(4095, 7)] 4094 = .ok 7 ∧ memRead2 [(4095, 7)] 4095 = .error 4096 ∧
    memRead1 [(4095, 7)] 4095 = .ok 7 ∧ memRead1 [] 4096 = .error 4096 ∧ memRead2 [] 4096 = .error 4096 := by
  refine ⟨?_, ?_, ?_, ?_, ?_⟩ <;> rfl

theorem witness_MemWriteContract : Memory.wf [(4095, 7)] = true ∧ memWrite1 [(4095, 7)] 4095 0 = .ok [] ∧
    memWrite1 [(4095, 7)] 4096 0 = .error 4096 := by
  refine ⟨by decide, ?_, ?_⟩ <;> rfl

/-- SP 0 and 15 may call, 16 may not. -/
theorem witness_CallPushesOrOverflows : (start 0x200 0x2ABC).sp.toNat < 16 ∧ ({ start 0x200 0x2ABC with sp := 15 } : State).sp.toNat < 16 ∧
    ({ start 0x200 0x2ABC with sp := 16 } : State).sp.toNat = 16 := by decide

/-- SP 1 and 16 may return, 0 may not. -/
theorem witness_ReturnPopsOrUnderflows : (withTop State.reset 0 0x204).sp.toNat = (0 : Fin 16).val + 1 ∧
    (withTop State.reset 15 0xABC).sp.toNat = (15 : Fin 16).val + 1 ∧ State.reset.sp.toNat = 0 := by decide

theorem witness_CallReturnRoundTrip : ({ State.reset with sp := 15 } : State).sp.toNat < 16 := by decide

/-- A word for every encoding that a statement names. -/
theorem witness_encodings : (0x1FFF : Word) &&& 0xF000 = 0x1000 ∧ (0x3F01 : Word) &&& 0xF000 = 0x3000 ∧
    (0x43FF : Word) &&& 0xF000 = 0x4000 ∧ (0x6F2C : Word) &&& 0xF000 = 0x6000 ∧ (0x7201 : Word) &&& 0xF000 = 0x7000 ∧
    (0x8AB0 : Word) &&& 0xF00F = 0x8000 ∧ (0x8AB1 : Word) &&& 0xF00F = 0x8001 ∧ (0x8AB2 : Word) &&& 0xF00F = 0x8002 ∧
    (0x8AB3 : Word) &&& 0xF00F = 0x8003 ∧ (0xAFFF : Word) &&& 0xF000 = 0xA000 ∧ (0xF507 : Word) &&& 0xF0FF = 0xF007 ∧
    (0xF515 : Word) &&& 0xF0FF = 0xF015 ∧ (0xF518 : Word) &&& 0xF0FF = 0xF018 := by decide

/-- A destination that is VF, one that is not, and a register that is neither. -/
theorem witness_register_choices : (1 : Nibble) ≠ vf ∧ (0xF : Nibble) = vf ∧ (2 : Nibble) ≠ 1 ∧ (2 : Nibble) ≠ vf := by decide

/-- The last index at which three bytes fit. -/
theorem witness_BcdStoresDigits : Memory.wf ({ start 0x200 0xF133 with idx := 0xFFD } : State).mem = true ∧
    ({ start 0x200 0xF133 with idx := 0xFFD } : State).idx.toNat + 2 < 4096 := by decide

/-- All sixteen registers at the last index at which they fit; the same state meets the hypotheses of RegisterLoad. -/
theorem witness_RegisterDump : Memory.wf ({ start 0x200 0xFF55 with idx := 0xFF0 } : State).mem = true ∧
    ({ start 0x200 0xFF55 with idx := 0xFF0 } : State).idx.toNat + (0xF : Nibble).toNat < 4096 := by decide

/-- The engine after the dump is a state `u` that DumpLoadRoundTrip speaks of. -/
theorem witness_DumpLoadRoundTrip : ∃ t, exec (.ldMemVx 1) { start 0x200 0xF155 with idx := 0x300 } = .next t ∧
    ∃ u : State, u.mem = t.mem ∧ u.idx = t.idx := ⟨_, rfl, _, rfl, rfl⟩

/-- IM24. -/
theorem witness_StoreSeenByNextFetch : Memory.wf ({ start 0x200 0xF155 with idx := 0x202 } : State).mem = true ∧ 1 ≤ (1 : Nibble).toNat ∧
    ({ start 0x200 0xF155 with idx := 0x202 } : State).idx.toNat = (start 0x200 0xF155).pc.toNat + 2 ∧
    ({ start 0x200 0xF155 with idx := 0x202 } : State).idx.toNat + (1 : Nibble).toNat < 4096 := by decide

/-- DP4: `n = 0` at an index outside memory; DP13: the last byte of memory. -/
theorem witness_DrawXorsSprite :
    runs (.drw 0 1 0) { State.reset with idx := 0xFFFF } (fun t => t.dirty && t.getV vf == 0) = true ∧
    ({ State.reset with idx := 0xFFF } : State).idx.toNat + (1 : Nibble).toNat ≤ 4096 := by decide

/-- A cell that a sprite covers, and one that it does not (DP13). -/
theorem witness_SpriteCovers :
    ({ State.reset with idx := 0xFFF, mem := [(0xFFF, 0x81)] } : State).SpriteCovers 0 1 1 7 0 ∧
    ¬ ({ State.reset with idx := 0xFFF, mem := [(0xFFF, 0x81)] } : State).SpriteCovers 0 1 1 7 1 := by
  refine ⟨⟨0, 7, by decide, by decide, by decide, by decide, by decide⟩, ?_⟩
  rintro ⟨j, k, hj, -, -, hr, -⟩
  have h0 : j = 0 := by simpa using hj
  subst h0
  exact absurd hr (by decide)

/-- The state after the first draw is a state `u` that DrawTwiceRestores speaks of. -/
theorem witness_DrawTwiceRestores : ∃ t, exec (.drw 0 1 1) { State.reset with idx := 0x300 } = .next t ∧ ∃ u : State,
    u.fb = t.fb ∧ u.idx = 0x300 ∧ u.getV 0 = 0 ∧ u.getV 1 = 0 ∧
      ∀ j, j < (1 : Nibble).toNat →
        u.readByte (u.idx.toNat + j) = ({ State.reset with idx := 0x300 } : State).readByte (0x300 + j) :=
  ⟨_, rfl, _, rfl, rfl, rfl, rfl, fun _ _ => rfl⟩

theorem witness_AwaitKey : (start 0x230 0xF30A).input.keyEvt = none ∧
    ({ start 0x230 0xF30A with inputs := [{ idle with keyEvt := some 0 }] } : State).input.keyEvt = some 0 := by decide

/-- The largest address an instruction can report. -/
theorem witness_FatalErrorRecord : (0x1000E : Nat) < 2 ^ 17 := by decide

/-- Each error at the boundary of its rule, and the state beside it that raises none. -/
theorem witness_FatalErrorsArePrecise :
    (Instr.call 0).raises { State.reset with sp := 16 } = some (.stackOverflow, 0) ∧
    (Instr.call 0).raises { State.reset with sp := 15 } = none ∧
    (Instr.ret 0).raises State.reset = some (.stackUnderflow, 0) ∧ (Instr.ret 0).raises { State.reset with sp := 1 } = none ∧
    (Instr.ldB 1).raises { State.reset with idx := 0xFFE } = some (.addressOutOfRange, 4096) ∧
    (Instr.ldB 1).raises { State.reset with idx := 0xFFD } = none ∧
    (Instr.ldMemVx 0xF).raises { State.reset with idx := 0xFF1 } = some (.addressOutOfRange, 4096) ∧
    (Instr.ldVxMem 0xF).raises { State.reset with idx := 0xFF0 } = none ∧
    (Instr.drw 0 0 2).raises { State.reset with idx := 0xFFF } = some (.addressOutOfRange, 4096) ∧
    (Instr.drw 0 0 0).raises { State.reset with idx := 0xFFFF } = none := by decide

/-- An instruction that writes VF as a flag, with and without VF as its destination, and one that writes no flag. -/
theorem witness_VfIsWrittenOnlyAsFlagOrDestination :
    (Instr.addReg 1 2).writesFlag = true ∧ (Instr.addReg 1 2).hasDest vf = false ∧ (Instr.addReg 0xF 2).hasDest vf = true ∧
    (Instr.ldImm 1 2).writesFlag = false ∧ (Instr.ldImm 1 2).hasDest vf = false ∧ (Instr.addReg 1 2).raises State.reset = none ∧
    runs (.addReg 1 2) State.reset (fun _ => true) = true ∧ runs (.ldImm 1 2) State.reset (fun _ => true) = true := by decide

/-- A register that is no destination. -/
theorem witness_RegistersChangeOnlyAsDestination : (3 : Nibble) ≠ vf ∧ (Instr.ldVxMem 2).hasDest 3 = false ∧
    runs (.ldVxMem 2) State.reset (fun _ => true) = true := by decide

/-- A change of each state that some instruction writes. -/
theorem witness_EachStateHasItsWriters :
    runs (.call 0x300) State.reset (fun t => decide (t.sp ≠ 0 ∧ t.stack ≠ State.reset.stack)) = true ∧
    runs (.ldI 1) State.reset (fun t => decide (t.idx ≠ 0)) = true ∧
    runs (.ldDTVx 0) (withV State.reset [(0, 1)]) (fun t => decide (t.dt ≠ 0)) = true ∧
    runs (.ldSTVx 0) (withV State.reset [(0, 1)]) (fun t => decide (t.st ≠ 0)) = true ∧
    runs (.ldVxK 0) { State.reset with inputs := [idle] } (fun t => decide (t.wait ≠ false)) = true ∧
    runs (.cls 0) State.reset (fun t => decide (t.dirty ≠ false)) = true ∧
    runs (.ldMemVx 0) { State.reset with idx := 0x300, v := Vector.replicate 16 1 } (fun t => decide (t.mem ≠ [])) = true := by decide

/-- An instruction that goes on, one that waits and one that fails. -/
theorem witness_IncrementStep : (start 0x200 0).status = .running ∧
    runs (.ldImm 1 2) (start 0x200 0) (fun t => t.status == .running) = true ∧ (Instr.ldImm 1 2).isControlFlow = false ∧
    runs (.ldVxK 1) (start 0x200 0) (fun t => t.wait && t.status == .running) = true ∧
    runs (.ret 1) (start 0x200 0) (fun t => t.status == .halted) = true := by decide

/-- Two lists of inputs that agree in the random byte and in nothing else. -/
theorem witness_InputsAreReadOnlyByTheirInstructions :
    runs (.rnd 1 2) (start 0x200 0) (fun _ => true) = true ∧
    ({ start 0x200 0 with inputs := [{ idle with keys := 5, keyEvt := some 3, ticks := 9 }], seq := 7 } : State).input.rnd =
      (start 0x200 0).input.rnd := by decide

/-- An instruction that is not LD ST,Vx, and one that is, each with a next state. -/
theorem witness_SoundTimerIsNeverReadBack : (∀ x, Instr.ldVxDT 1 ≠ .ldSTVx x) ∧
    runs (.ldVxDT 1) State.reset (fun t => t.st == 0) = true ∧
    runs (.ldSTVx 1) { State.reset with st := 9 } (fun t => t.st == 0) = true := by decide

/-- pc at the last address that can be fetched, and the two beyond it. -/
theorem witness_FetchReadsBigEndian : (start 0xFFE 0x1234).fetch = .ok 0x1234 ∧
    ({ State.reset with pc := 0xFFF } : State).fetch = .error 4096 ∧
    ({ State.reset with pc := 0x1000 } : State).fetch = .error 4096 := by
  refine ⟨?_, ?_, ?_⟩ <;> rfl

/-- A CALL about to be fetched. -/
theorem witness_StepRunsDecodedInstruction : (start 0x200 0x2ABC).AboutToFetch ∧ (start 0x200 0x2ABC).fetch = .ok 0x2ABC ∧
    decode 0x2ABC = .ok (.call 0xABC) := ⟨⟨by decide, by decide, by decide⟩, by decide, by decide⟩

theorem witness_UnknownWordIsReportedNoOp : (start 0x240 0x8AB9).AboutToFetch ∧ (start 0x240 0x8AB9).fetch = .ok 0x8AB9 ∧
    decode 0x8AB9 = .error (.unknownOpcode 0x8AB9) := ⟨⟨by decide, by decide, by decide⟩, by decide, by decide⟩

theorem witness_HaltedIsAbsorbing : ({ start 0x200 0 with status := .halted, cause := .abort } : State).status = .halted := rfl

theorem witness_AbortHalts : ({ start 0x200 0 with inputs := [{ idle with abort := true }] } : State).status = .running ∧
    ({ start 0x200 0 with inputs := [{ idle with abort := true }] } : State).input.abort = true := ⟨rfl, rfl⟩

/-- The limit and the address after it. -/
theorem witness_EndOfProgramHalts : (start 0x206 0).status = .running ∧ (start 0x206 0).input.abort = false ∧
    (6#12).toNat + 0x200 < ({ start 0x207 0 with progSize := 6 } : State).pc.toNat ∧
    ({ start 0x206 0 with progSize := 6 } : State).pc.toNat ≤ (6#12).toNat + 0x200 := by decide

/-- LP8 and LP6: the two addresses at which a fetch can fail with a legal PROG_SIZE. -/
theorem witness_FetchFaultHalts : (start 0xFFF 0).AboutToFetch ∧ 4095 ≤ (start 0xFFF 0).pc.toNat ∧
    (start 0x1000 0).AboutToFetch ∧ 4095 ≤ (start 0x1000 0).pc.toNat := by
  exact ⟨⟨by decide, by decide, by decide⟩, by decide, ⟨by decide, by decide, by decide⟩, by decide⟩

/-- Running with a picture to present, Running and waiting, and halted. -/
theorem witness_EndOfStep : ({ start 0x200 0 with dirty := true } : State).status = .running ∧
    ({ start 0x200 0 with wait := true } : State).wait = true ∧
    ({ start 0x200 0 with status := .halted } : State).status = .halted := ⟨rfl, rfl, rfl⟩

theorem witness_WaitStepChangesOnlyWait : (start 0x230 0xF30A).AboutToFetch ∧ (start 0x230 0xF30A).dirty = false ∧
    (start 0x230 0xF30A).fetch = .ok 0xF30A ∧ decode 0xF30A = .ok (.ldVxK 3) ∧ (start 0x230 0xF30A).input.keyEvt = none :=
  ⟨⟨by decide, by decide, by decide⟩, by decide, by decide, by decide, by decide⟩

/-- A step that presents and one that does not. -/
theorem witness_PresentExactlyAfterDrawing :
    after (start 0x200 0x00E0) (fun t => t.events == [.present t.fb]) = true ∧
    after (start 0x200 0x6000) (fun t => t.events == []) = true ∧ (start 0x200 0x00E0).dirty = false := by decide

/-- A launch state exists, for a program of the largest length too, and one more byte is refused (RS1 to RS3). -/
theorem witness_LaunchState : [0x12, 0x00].length ≤ 3584 ∧ (List.replicate 3584 (0 : Byte)).length ≤ 3584 ∧
    3584 < (List.replicate 3585 (0 : Byte)).length := by
  rw [List.length_replicate, List.length_replicate]; decide

/-- An engine that was launched from a halted one (RS1, RS4). -/
theorem witness_InvariantHoldsAtLaunch : ∃ t,
    ({ State.reset with status := .halted, sp := 16 } : State).launch Config.defaultFont (some [0x12, 0x00]) = .ok t := ⟨_, rfl⟩

/-- The default FONT leaves the reset state, and another one does not: its bytes are in memory (R251). -/
theorem witness_ResetStateIsDefaultFont : fontMemory Config.defaultFont = [] ∧
    fontMemory (Vector.replicate _ 7) ≠ [] ∧ Memory.peek (fontMemory (Vector.replicate _ 7)) 79 = 7 ∧
    Memory.peek (fontMemory (Vector.replicate _ 7)) 80 = 0 := by decide

/-- A state that meets the invariant and is not the reset state: inside a subroutine, waiting for a key. -/
def waiting : State := { withTop (start 0x230 0xF30A) 0 0x204 with wait := true }

/-- It meets the hypotheses of StepKeepsInvariant and StepIsTotalUnderInvariant. -/
theorem witness_StepKeepsInvariant : waiting.Inv ∧ after waiting (fun t => t.wait) = true := by
  refine ⟨⟨by decide, by decide, by decide, by decide, by decide, by decide, by decide, ⟨rfl, rfl, rfl⟩, by decide, ?_⟩, by decide⟩
  exact fun _ => ⟨0xF30A, 3, by decide, by decide⟩

end Sys2Proof.Tests
end

/-! SUPPORT. What an instruction can answer, said once for all instructions (40_control_flow.md to 44_keys_timers.md), and which
registers it may change (10_state.md R20, R21). -/

namespace Sys2Proof.Machine

variable {s t u : State} {i : Instr}

/-! ### Operands as numbers -/

@[simp] theorem zext16_toNat (nnn : Addr12) : (zext16 nnn).toNat = nnn.toNat := by
  simp [zext16]; omega

/-- The target of JP V0 is the plain sum: it never wraps (R108). -/
theorem State.offsetTarget_toNat (s : State) (nnn : Addr12) :
    (s.offsetTarget nnn).toNat = nnn.toNat + (s.getV 0).toNat := by
  have := nnn.isLt
  have := (s.getV 0).isLt
  simp [State.offsetTarget, byteToWord]
  omega

/-- Where a skip of a fetched instruction can go. -/
theorem State.skipTarget_le (s : State) (c : Bool) (h : s.pc.toNat ≤ 0xFFE) : (s.skipTarget c).toNat ≤ 0x10FE := by
  rw [State.skipTarget_eq]
  cases c <;> simp <;> omega

/-! ### Which registers an instruction may change -/

/-- From `s` to `t` the registers change as `i` may change them (R20, R21): but for its destinations, only VF, and that only to the
0 or 1 of a flag writer. -/
def State.WritesRegs (s : State) (i : Instr) (t : State) : Prop :=
  ∃ flag, ∀ r, i.hasDest r = false → t.getV r = if i.writesFlag = true ∧ r = vf then flagByte flag else s.getV r

theorem State.WritesRegs.of_same (hf : i.writesFlag = false) (hv : t.v = s.v) : s.WritesRegs i t :=
  ⟨false, fun r _ => by simp [hf, State.getV_congr hv]⟩

theorem State.WritesRegs.setV {x : Nibble} (b : Byte) (hf : i.writesFlag = false) (hx : i.hasDest x = true) :
    s.WritesRegs i (s.setV x b) := by
  refine ⟨false, fun r hr => ?_⟩
  have hne : r ≠ x := by rintro rfl; simp [hx] at hr
  simp [hf, State.getV_setV_other s b hne]

theorem State.WritesRegs.setFlagThenResult {x : Nibble} (flag : Bool) (b : Byte) (hf : i.writesFlag = true)
    (hx : i.hasDest x = true) : s.WritesRegs i (s.setFlagThenResult x (flagByte flag) b) := by
  refine ⟨flag, fun r hr => ?_⟩
  have hne : r ≠ x := by rintro rfl; simp [hx] at hr
  simp [hf, State.getV_setFlagThenResult, hne]

/-- The register load writes V0 to Vx only (R146). -/
theorem State.WritesRegs.loadRegs {x : Nibble} {bs : List Byte} (hl : bs.length = x.toNat + 1) :
    s.WritesRegs (.ldVxMem x) (s.loadRegs 0 bs) := by
  refine ⟨false, fun r hr => ?_⟩
  have hgt : ¬ r.toNat ≤ x.toNat := by simpa [Instr.hasDest] using hr
  have := x.isLt
  rw [State.getV_loadRegs bs r s 0 (by omega), dif_neg (by omega), if_neg (by simp [Instr.writesFlag])]

/-- DRW writes VF only (R162). -/
theorem State.WritesRegs.drw (x y n : Nibble) (flag : Bool) : s.WritesRegs (.drw x y n) (s.setV vf (flagByte flag)) :=
  ⟨flag, fun r _ => by simp [Instr.writesFlag, State.getV_setV]⟩

/-! ### Everything an instruction can answer -/

/-- The next states that instruction `i` can answer in state `s`: it fails, or it is of one of the kinds by what it writes. -/
inductive Effect (s : State) : Instr → State → Prop
  /-- A fatal error (R225). -/
  | fails {i : Instr} {e : FatalError} {a : Nat} (hr : i.raises s = some (e, a)) : Effect s i (s.takeFatal e (encode i) a)
  /-- Registers only. -/
  | registers {i : Instr} (v : Vector Byte Config.nReg) (hcf : i.isControlFlow = false) (hk : ∀ x, i ≠ .ldVxK x)
      (hv : s.WritesRegs i { s with v := v }) : Effect s i { s with v := v }.advance
  /-- CLS and DRW: the framebuffer, and VF. -/
  | draws {i : Instr} (v : Vector Byte Config.nReg) (fb : Framebuffer)
      (hi : (∃ ign, i = .cls ign) ∨ ∃ x y n, i = .drw x y n) (hv : s.WritesRegs i { s with v := v }) :
      Effect s i { s with v := v, fb := fb, dirty := true }.advance
  /-- LD I, ADD I and LD F. -/
  | index {i : Instr} (idx : Word) (hi : (∃ nnn, i = .ldI nnn) ∨ (∃ x, i = .addI x) ∨ ∃ x, i = .ldF x) :
      Effect s i { s with idx := idx }.advance
  /-- LD B and LD [I],Vx, inside memory. -/
  | stores {i : Instr} (bs : List Byte) (hi : (∃ x, i = .ldB x) ∨ ∃ x, i = .ldMemVx x)
      (hfit : s.idx.toNat + bs.length ≤ 4096) : Effect s i { s with mem := writeBlock s.mem s.idx.toNat bs }.advance
  | delayTimer (x : Nibble) : Effect s (.ldDTVx x) { s with dt := s.getV x }.advance
  | soundTimer (x : Nibble) : Effect s (.ldSTVx x) { s with st := s.getV x }.advance
  /-- LD Vx,K without a key event: pc stays (R173). -/
  | waits (x : Nibble) : Effect s (.ldVxK x) { s with wait := true }
  | keyPressed (x k : Nibble) : Effect s (.ldVxK x) { s.setV x (nibbleToByte k) with wait := false }.advance
  /-- The control-flow handlers that leave the stack; the bound is that of R24, for a fetched instruction. -/
  | jumps {i : Instr} (target : Word) (hcf : i.isControlFlow = true)
      (hle : s.pc.toNat ≤ 0xFFE → target.toNat ≤ 0x10FE) : Effect s i (s.jump target)
  | calls (nnn : Addr12) (h : s.sp.toNat < 16) : Effect s (.call nnn) ((s.pushPc h).jump (zext16 nnn))
  | returns (ign : Byte) (k : Fin 16) (hk : s.sp.toNat = k.val + 1) :
      Effect s (.ret ign) (s.popStack.jump (s.stack[k] + 2))

theorem Effect.of_setV {x : Nibble} (b : Byte) (hcf : i.isControlFlow = false) (hk : ∀ x, i ≠ .ldVxK x)
    (hf : i.writesFlag = false) (hx : i.hasDest x = true) : Effect s i (s.setV x b).advance :=
  .registers (s.setV x b).v hcf hk (.setV b hf hx)

theorem Effect.of_setFlag {x : Nibble} (flag : Bool) (b : Byte) (hcf : i.isControlFlow = false) (hk : ∀ x, i ≠ .ldVxK x)
    (hf : i.writesFlag = true) (hx : i.hasDest x = true) : Effect s i (s.setFlagThenResult x (flagByte flag) b).advance :=
  .registers (s.setFlagThenResult x (flagByte flag) b).v hcf hk (.setFlagThenResult flag b hf hx)

/-! ### The instructions that branch -/

/-- The form the four memory instructions share (R140 (e), R162): the range of `n` bytes at I is checked, and `u` is the state of
a completed instruction. -/
def State.checkRange (s : State) (i : Instr) (n : Nat) (u : State) : Host.Outcome State Fault Refusal :=
  match rangeFault (s.ea 0) n with
  | some a => .next (s.takeFatal .addressOutOfRange (encode i) a)
  | none => .next u

theorem State.checkRange_next {n : Nat} : s.checkRange i n u = .next t ↔
    (∃ a, rangeFault (s.ea 0) n = some a ∧ t = s.takeFatal .addressOutOfRange (encode i) a) ∨
    (rangeFault (s.ea 0) n = none ∧ t = u) := by
  unfold State.checkRange
  cases rangeFault (s.ea 0) n <;> simp [eq_comm]

theorem exec_ldB (x : Nibble) (s : State) : exec (.ldB x) s =
    s.checkRange (.ldB x) 3 { s with mem := writeBlock s.mem (s.ea 0) (bcdDigits (s.getV x)) }.advance := rfl

theorem exec_ldMemVx (x : Nibble) (s : State) : exec (.ldMemVx x) s =
    s.checkRange (.ldMemVx x) (x.toNat + 1) { s with mem := writeBlock s.mem (s.ea 0) (s.firstRegs x) }.advance := rfl

theorem exec_ldVxMem (x : Nibble) (s : State) : exec (.ldVxMem x) s =
    s.checkRange (.ldVxMem x) (x.toNat + 1) (s.loadRegs 0 (readBlock s.mem (s.ea 0) (x.toNat + 1))).advance := rfl

theorem exec_drw (x y n : Nibble) (s : State) : exec (.drw x y n) s =
    s.checkRange (.drw x y n) n.toNat
      { s.setV vf (flagByte (drawSprite (s.getV x) (s.getV y) (readBlock s.mem (s.ea 0) n.toNat) s.fb).2) with
        fb := (drawSprite (s.getV x) (s.getV y) (readBlock s.mem (s.ea 0) n.toNat) s.fb).1, dirty := true }.advance := rfl

/-- An instruction that checks its range fails with what it raises (R221), and completes with `u` otherwise. -/
theorem Effect.of_checkRange {n : Nat} (h : s.checkRange i n u = .next t)
    (hr : i.raises s =
      if 0 < n ∧ 4096 ≤ s.idx.toNat + n - 1 then some (.addressOutOfRange, max s.idx.toNat 4096) else none)
    (hu : n = 0 ∨ s.idx.toNat + n ≤ 4096 → Effect s i u) : Effect s i t := by
  obtain ⟨a, ha, rfl⟩ | ⟨hn, rfl⟩ := State.checkRange_next.mp h
  · obtain ⟨hpos, hlt, rfl⟩ := rangeFault_some.mp ha
    simp only [State.ea, Nat.add_zero] at hlt
    exact .fails (by rw [hr, if_pos (by omega)]; rfl)
  · exact hu (rangeFault_none.mp hn)

theorem exec_call_next {nnn : Addr12} : exec (.call nnn) s = .next t ↔
    (s.sp.toNat = 16 ∧ t = s.takeFatal .stackOverflow (encode (.call nnn)) 0) ∨
    ∃ h : s.sp.toNat < 16, t = (s.pushPc h).jump (zext16 nnn) := by
  change (execCall nnn s = _) ↔ _
  unfold execCall Config.stackDepth
  split
  · simp [eq_comm, *]
  · split <;> simp [eq_comm, *]

theorem exec_ret_next {ign : Byte} : exec (.ret ign) s = .next t ↔
    (s.sp.toNat = 0 ∧ t = s.takeFatal .stackUnderflow (encode (.ret ign)) 0) ∨
    ∃ k : Fin 16, s.sp.toNat = k.val + 1 ∧ t = s.popStack.jump (s.stack[k] + 2) := by
  change (execRet ign s = _) ↔ _
  unfold execRet Config.stackDepth
  split
  next h0 => simp [h0, eq_comm]
  next h0 =>
    split
    next h =>
      have hk : ∀ k : Fin 16, s.sp.toNat = k.val + 1 ↔ k = ⟨s.sp.toNat - 1, h⟩ := fun k => by rw [Fin.ext_iff]; simp; omega
      simp [h0, hk, eq_comm]
      rfl
    next h =>
      have hk : ∀ k : Fin 16, s.sp.toNat ≠ k.val + 1 := fun k => by omega
      simp [h0, hk]

theorem exec_ldVxK_next {x : Nibble} : exec (.ldVxK x) s = .next t ↔
    (s.input.keyEvt = none ∧ t = { s with wait := true }) ∨
    ∃ k, s.input.keyEvt = some k ∧ t = { s.setV x (nibbleToByte k) with wait := false }.advance := by
  change (execLdVxK x s = _) ↔ _
  unfold execLdVxK
  cases s.input.keyEvt <;> simp [eq_comm]

/-! ### All instructions -/

/-- The inversion lemma of `exec`: a next state is one of the kinds of `Effect`. -/
theorem exec_effect (h : exec i s = .next t) : Effect s i t := by
  cases i with
  | cls ign => cases h; exact .draws s.v Framebuffer.off (.inl ⟨ign, rfl⟩) (.of_same rfl rfl)
  | ret ign =>
    obtain ⟨h0, rfl⟩ | ⟨k, hk, rfl⟩ := exec_ret_next.mp h
    · exact .fails (if_pos h0)
    · exact .returns ign k hk
  | jp nnn => cases h; exact .jumps _ rfl fun _ => by rw [zext16_toNat]; omega
  | call nnn =>
    obtain ⟨h16, rfl⟩ | ⟨hlt, rfl⟩ := exec_call_next.mp h
    · exact .fails (if_pos h16)
    · exact .calls nnn hlt
  | seImm x nn => cases h; exact .jumps _ rfl (s.skipTarget_le _)
  | sneImm x nn => cases h; exact .jumps _ rfl (s.skipTarget_le _)
  | seReg x y ign => cases h; exact .jumps _ rfl (s.skipTarget_le _)
  | sneReg x y ign => cases h; exact .jumps _ rfl (s.skipTarget_le _)
  | jpV0 nnn =>
    cases h
    exact .jumps _ rfl fun _ => by
      have := nnn.isLt
      have := (s.getV 0).isLt
      rw [State.offsetTarget_toNat]; omega
  | skp x ign => cases h; exact .jumps _ rfl (s.skipTarget_le _)
  | sknp x ign => cases h; exact .jumps _ rfl (s.skipTarget_le _)
  | ldImm x nn => cases h; exact .of_setV _ rfl nofun rfl (beq_self_eq_true x)
  | addImm x nn => cases h; exact .of_setV _ rfl nofun rfl (beq_self_eq_true x)
  | ldReg x y => cases h; exact .of_setV _ rfl nofun rfl (beq_self_eq_true x)
  | orReg x y => cases h; exact .of_setV _ rfl nofun rfl (beq_self_eq_true x)
  | andReg x y => cases h; exact .of_setV _ rfl nofun rfl (beq_self_eq_true x)
  | xorReg x y => cases h; exact .of_setV _ rfl nofun rfl (beq_self_eq_true x)
  | rnd x nn => cases h; exact .of_setV _ rfl nofun rfl (beq_self_eq_true x)
  | ldVxDT x => cases h; exact .of_setV _ rfl nofun rfl (beq_self_eq_true x)
  | addReg x y => cases h; exact .of_setFlag _ _ rfl nofun rfl (beq_self_eq_true x)
  | subReg x y => cases h; exact .of_setFlag _ _ rfl nofun rfl (beq_self_eq_true x)
  | subnReg x y => cases h; exact .of_setFlag _ _ rfl nofun rfl (beq_self_eq_true x)
  | shr x y => cases h; exact .of_setFlag _ _ rfl nofun rfl (beq_self_eq_true x)
  | shl x y => cases h; exact .of_setFlag _ _ rfl nofun rfl (beq_self_eq_true x)
  | ldI nnn => cases h; exact .index _ (.inl ⟨nnn, rfl⟩)
  | addI x => cases h; exact .index _ (.inr (.inl ⟨x, rfl⟩))
  | ldF x => cases h; exact .index _ (.inr (.inr ⟨x, rfl⟩))
  | ldDTVx x => cases h; exact .delayTimer x
  | ldSTVx x => cases h; exact .soundTimer x
  | ldVxK x =>
    obtain ⟨_, rfl⟩ | ⟨k, _, rfl⟩ := exec_ldVxK_next.mp h
    · exact .waits x
    · exact .keyPressed x k
  | drw x y n =>
    rw [exec_drw] at h
    exact .of_checkRange h rfl fun _ => .draws _ _ (.inr ⟨x, y, n, rfl⟩) (.drw x y n _)
  | ldB x =>
    rw [exec_ldB] at h
    exact .of_checkRange h (by simp [Instr.raises]) fun hn =>
      .stores (bcdDigits (s.getV x)) (.inl ⟨x, rfl⟩) (by simpa [bcdDigits] using hn)
  | ldMemVx x =>
    rw [exec_ldMemVx] at h
    exact .of_checkRange h (by simp [Instr.raises]) fun hn =>
      .stores (s.firstRegs x) (.inr ⟨x, rfl⟩) (by simpa using hn)
  | ldVxMem x =>
    rw [exec_ldVxMem] at h
    refine .of_checkRange h (by simp [Instr.raises]) fun _ => ?_
    rw [State.loadRegs_eq]
    refine .registers _ rfl nofun ?_
    rw [← State.loadRegs_eq]
    exact .loadRegs readBlock_length

end Sys2Proof.Machine

/-! SUPPORT. The invariant of the reachable states: one rule per operation of a step that keeps it, and from them that every step
keeps it (10_state.md R24, R28, R34 to R36; 45_execution_loop.md R204 to R206). -/

namespace Sys2Proof.Machine

variable {s t u : State} {i : Instr} {w : Word}

/-! ### What the invariant says of a Running engine -/

theorem State.recordMatchesCause_iff_clear (hc : s.cause = .none) :
    s.recordMatchesCause ↔ s.fpc = 0 ∧ s.fword = 0 ∧ s.faddr = 0 := by
  rw [State.recordMatchesCause, hc]

theorem State.Inv.record_clear (h : s.Inv) (hr : s.status = .running) : s.fpc = 0 ∧ s.fword = 0 ∧ s.faddr = 0 :=
  (State.recordMatchesCause_iff_clear (h.cause_none.mp hr)).mp h.record

/-- An engine that fetches anything but a LD Vx,K does not wait (R35). -/
theorem State.Inv.wait_clear (h : s.Inv) (hf : s.fetch = .ok w) (hd : ∀ x, decode w ≠ .ok (.ldVxK x)) : s.wait = false := by
  refine Bool.eq_false_of_not_eq_true fun hw => ?_
  obtain ⟨w', x, hf', hx⟩ := h.wait_at_key hw
  obtain rfl : w' = w := by rw [hf] at hf'; injection hf' with e; exact e.symm
  exact hd x hx

/-! ### The rules -/

theorem State.Inv.beginStep (h : s.Inv) : s.beginStep.Inv := { h with }

theorem State.Inv.clearDirty (h : s.Inv) : ({ s with dirty := false } : State).Inv := { h with dirty_clear := rfl }

theorem State.Inv.haltAbort (h : s.Inv) (hr : s.status = .running) : (s.haltWith .abort).Inv :=
  { h with
    cause_none := by simp
    record := h.record_clear hr
    ended := by simp }

theorem State.Inv.haltEndOfProgram (h : s.Inv) (hr : s.status = .running) (hp : s.pastEnd = true) :
    (s.haltWith .endOfProgram).Inv :=
  { h with
    cause_none := by simp
    record := h.record_clear hr
    ended := fun _ => hp }

/-- The addresses that go with a fatal error (R221 to R223): one that does not exist, and 0 for the two stack errors. -/
def FatalError.Reports (a : Nat) : FatalError → Prop
  | .addressOutOfRange => 4096 ≤ a ∧ a < 2 ^ 17
  | .stackOverflow => a = 0
  | .stackUnderflow => a = 0

theorem State.Inv.takeFatal {e : FatalError} {a : Nat} (h : s.Inv) (ha : e.Reports a) : (s.takeFatal e w a).Inv :=
  { h with
    cause_none := by simp
    record := by
      cases e with
      | addressOutOfRange =>
        refine ⟨rfl, ?_⟩
        rw [State.takeFatal_faddr, BitVec.toNat_ofNat, Nat.mod_eq_of_lt ha.2]
        exact ha.1
      | stackOverflow => obtain rfl : a = 0 := ha; exact ⟨rfl, rfl⟩
      | stackUnderflow => obtain rfl : a = 0 := ha; exact ⟨rfl, rfl⟩
    ended := by simp }

/-- A Running engine that does not wait may move its pc within the bound of R24. -/
theorem State.Inv.jump {target : Word} (h : s.Inv) (hr : s.status = .running) (hw : s.wait = false)
    (ht : target.toNat ≤ 0x10FE) : (s.jump target).Inv :=
  { h with
    pc_le := ht
    record := (State.recordMatchesCause_iff_clear (s := s.jump target) (h.cause_none.mp hr)).mpr (h.record_clear hr)
    ended := fun hc => by
      rw [State.jump_cause, h.cause_none.mp hr] at hc
      cases hc
    wait_at_key := fun hwt => by
      rw [State.jump_wait, hw] at hwt
      cases hwt }

theorem State.Inv.advance (h : s.Inv) (hr : s.status = .running) (hw : s.wait = false) (hp : s.pc.toNat ≤ 0xFFE) :
    s.advance.Inv :=
  h.jump hr hw (by simp [Config.instrBytes]; omega)

theorem State.Inv.pushPc (h : s.Inv) (hw : s.wait = false) (hp : s.pc.toNat ≤ 0xFFE) (hsp : s.sp.toNat < 16) :
    (s.pushPc hsp).Inv :=
  { h with
    sp_le := by simp; omega
    stack_le := fun k => by
      have hk := h.stack_le k
      simp only [Fin.getElem_fin, State.pushPc_stack, Vector.getElem_set] at hk ⊢
      split
      · exact hp
      · exact hk
    wait_at_key := fun hwt => by
      rw [State.pushPc_wait, hw] at hwt
      cases hwt }

theorem State.Inv.popStack (h : s.Inv) (hsp : 0 < s.sp.toNat) : s.popStack.Inv :=
  { h with
    sp_le := by
      have := h.sp_le
      simp; omega }

/-- The end of a step leaves everything but DIRTY as the invariant found it (R204, R205). -/
theorem State.Inv.endStep (h : ({ u with dirty := false } : State).Inv) (hd : u.status = .halted → u.dirty = false) :
    u.endStep.Inv := by
  have hclear : u.endStep.dirty = false := by
    cases hu : u.status with
    | running => exact State.endStep_dirty_of_running hu
    | halted => rw [State.endStep_of_halted hu]; exact hd hu
  rw [u.endStep_frame, hclear]
  exact { h with }

/-! ### Instructions -/

/-- What a guarded fatal error reports. -/
theorem reports_of_guard {c : Prop} [Decidable c] {e e' : FatalError} {a a' : Nat}
    (h : (if c then some (e', a') else none) = some (e, a)) (ha : e'.Reports a') : e.Reports a := by
  obtain ⟨_, h⟩ := Option.ite_none_right_eq_some.mp h
  cases h
  exact ha

/-- The address an instruction reports is one that goes with its error. -/
theorem reports_of_raises {e : FatalError} {a : Nat} (h : i.raises s = some (e, a)) : e.Reports a := by
  have hmax : FatalError.Reports (max s.idx.toNat 4096) .addressOutOfRange := by
    have := s.idx.isLt
    simp only [FatalError.Reports]
    omega
  cases i with
  | call _ => exact reports_of_guard h rfl
  | ret _ => exact reports_of_guard h rfl
  | ldB _ => exact reports_of_guard h hmax
  | ldMemVx _ => exact reports_of_guard h hmax
  | ldVxMem _ => exact reports_of_guard h hmax
  | drw _ _ _ => exact reports_of_guard h hmax
  | _ => cases h

/-- An instruction that was fetched keeps the invariant, but for DIRTY. -/
theorem Effect.inv (he : Effect s i u) (h : s.Inv) (hr : s.status = .running) (hf : s.fetch = .ok w)
    (hd : decode w = .ok i) : ({ u with dirty := false } : State).Inv := by
  have hp : s.pc.toNat ≤ 0xFFE := by
    have := (State.fetch_ok hf).1
    omega
  have hw : (∀ x, i ≠ .ldVxK x) → s.wait = false := fun hi =>
    h.wait_clear hf fun x hx => hi x (by rw [hd] at hx; injection hx)
  cases he with
  | fails hraise => exact (h.takeFatal (reports_of_raises hraise)).clearDirty
  | registers v _ hk _ => exact (State.Inv.advance (s := { s with v := v }) { h with } hr (hw hk) hp).clearDirty
  | draws v fb hi _ =>
    refine State.Inv.advance (s := { s with v := v, fb := fb, dirty := false }) { h with dirty_clear := rfl } hr (hw ?_) hp
    obtain ⟨_, rfl⟩ | ⟨_, _, _, rfl⟩ := hi <;> exact nofun
  | index idx hi =>
    refine (State.Inv.advance (s := { s with idx := idx }) { h with } hr (hw ?_) hp).clearDirty
    obtain ⟨_, rfl⟩ | ⟨_, rfl⟩ | ⟨_, rfl⟩ := hi <;> exact nofun
  | stores bs hi hfit =>
    have hclear : s.wait = false := hw (by obtain ⟨_, rfl⟩ | ⟨_, rfl⟩ := hi <;> exact nofun)
    exact (State.Inv.advance (s := { s with mem := writeBlock s.mem s.idx.toNat bs })
      { h with
        mem_wf := writeBlock_wf hfit h.mem_wf
        wait_at_key := fun hwt => absurd hwt (by simp [hclear]) } hr hclear hp).clearDirty
  | delayTimer x => exact (State.Inv.advance (s := { s with dt := s.getV x }) { h with } hr (hw nofun) hp).clearDirty
  | soundTimer x => exact (State.Inv.advance (s := { s with st := s.getV x }) { h with } hr (hw nofun) hp).clearDirty
  | waits x => exact { h with dirty_clear := rfl, wait_at_key := fun _ => ⟨w, x, hf, hd⟩ }
  | keyPressed x k =>
    exact (State.Inv.advance (s := { s.setV x (nibbleToByte k) with wait := false })
      { h with wait_at_key := nofun } hr rfl hp).clearDirty
  | jumps target hcf hle =>
    exact (h.jump hr (hw (by rintro x rfl; cases hcf)) (hle hp)).clearDirty
  | calls nnn hsp =>
    refine ((h.pushPc (hw nofun) hp hsp).jump hr (hw nofun) ?_).clearDirty
    rw [zext16_toNat]; omega
  | returns ign k hk =>
    refine ((h.popStack (by omega)).jump hr (hw nofun) ?_).clearDirty
    have hslot := h.stack_le k
    rw [BitVec.toNat_add, show (2 : Word).toNat = 2 from rfl]
    omega

/-- An instruction that ends in a halt leaves DIRTY as it was. -/
theorem Effect.dirty_of_halted (he : Effect s i u) (hr : s.status = .running) (hu : u.status = .halted) :
    u.dirty = s.dirty := by
  cases he with
  | fails => rfl
  | _ => simp [hr] at hu

/-- An unknown word is not the word a waiting engine stands at, and the pc goes on (R198, R199). -/
theorem State.Inv.execUnknown {e : DecodeError} (h : s.Inv) (hr : s.status = .running) (hf : s.fetch = .ok w)
    (hd : decode w = .error e) : (execUnknown w s).Inv := by
  have hp : s.pc.toNat ≤ 0xFFE := by
    have := (State.fetch_ok hf).1
    omega
  exact State.Inv.advance (s := s.emit (.unknownOpcode w s.pc)) { h with } hr (h.wait_clear hf (by simp [hd])) hp

/-- The address of a failing fetch does not exist (R195). -/
theorem State.fetch_error_reports {a : Nat} (h : s.fetch = .error a) : FatalError.Reports a .addressOutOfRange := by
  by_cases hp : s.pc.toNat + 1 < 4096
  · rw [State.fetch, memRead2_ok hp] at h
    cases h
  · rw [State.fetch, memRead2_error (by omega)] at h
    injection h with h
    have := s.pc.isLt
    simp only [FatalError.Reports]
    omega

/-- Settles O55: in each case of a step, what stands before its end keeps the invariant by the rule of that case. -/
theorem stepKeepsInvariant : Obligations.StepKeepsInvariant := by
  intro s t h hstep
  have hb := h.beginStep
  obtain ⟨_, rfl⟩ | ⟨hr, _, rfl⟩ | ⟨hr, _, hp, rfl⟩ | ⟨⟨hr, _, _⟩, a, hf, rfl⟩ | ⟨⟨hr, _, _⟩, w, e, hf, hd, rfl⟩ |
    ⟨⟨hr, _, _⟩, w, i, u, hf, hd, hx, rfl⟩ := step_cases hstep
  · exact hb.clearDirty.endStep fun _ => h.dirty_clear
  · exact (hb.haltAbort hr).clearDirty.endStep fun _ => h.dirty_clear
  · exact (hb.haltEndOfProgram hr hp).clearDirty.endStep fun _ => h.dirty_clear
  · exact (hb.takeFatal (State.fetch_error_reports hf)).clearDirty.endStep fun _ => h.dirty_clear
  · exact (hb.execUnknown hr hf hd).clearDirty.endStep fun _ => h.dirty_clear
  · have he := exec_effect hx
    exact (he.inv hb hr hf hd).endStep fun hu => (he.dirty_of_halted hr hu).trans h.dirty_clear

end Sys2Proof.Machine

/-! SUPPORT. What instructions write, over all of them: the registers, the other pieces of state, and pc (10_state.md R20 to R38;
45_execution_loop.md R198); and that none reads the sound timer back (R31). -/

namespace Sys2Proof.Machine

variable {s t : State} {i : Instr}

/-! ### Registers -/

theorem flagByte_eq_zero_or_one (b : Bool) : flagByte b = 0 ∨ flagByte b = 1 := by
  cases b
  · exact .inl rfl
  · exact .inr rfl

theorem writesFlag_of_isControlFlow : i.isControlFlow = true → i.writesFlag = false := by
  cases i <;> simp [Instr.isControlFlow, Instr.writesFlag]

/-- An instruction that completes changes registers as R20 and R21 allow it; one that fails changes none. -/
theorem Effect.writesRegs (he : Effect s i t) : (i.raises s ≠ none ∧ t.v = s.v) ∨ s.WritesRegs i t := by
  cases he with
  | fails hr => exact .inl ⟨by simp [hr], rfl⟩
  | registers v _ _ hv => exact .inr hv
  | draws v fb _ hv => exact .inr hv
  | index idx hi => exact .inr (.of_same (by obtain ⟨_, rfl⟩ | ⟨_, rfl⟩ | ⟨_, rfl⟩ := hi <;> rfl) rfl)
  | stores bs hi _ => exact .inr (.of_same (by obtain ⟨_, rfl⟩ | ⟨_, rfl⟩ := hi <;> rfl) rfl)
  | delayTimer x => exact .inr (.of_same rfl rfl)
  | soundTimer x => exact .inr (.of_same rfl rfl)
  | waits x => exact .inr (.of_same rfl rfl)
  | keyPressed x k => exact .inr (.setV (nibbleToByte k) rfl (beq_self_eq_true x))
  | jumps target hcf _ => exact .inr (.of_same (writesFlag_of_isControlFlow hcf) rfl)
  | calls nnn _ => exact .inr (.of_same rfl rfl)
  | returns ign k _ => exact .inr (.of_same rfl rfl)

/-- A register that is neither a destination nor the flag of a flag writer keeps its value. -/
theorem exec_getV_frame {r : Nibble} (h : exec i s = .next t) (hd : i.hasDest r = false)
    (hf : ¬ (i.writesFlag = true ∧ r = vf)) : t.getV r = s.getV r := by
  obtain ⟨_, hv⟩ | ⟨flag, hregs⟩ := (exec_effect h).writesRegs
  · exact State.getV_congr hv r
  · rw [hregs r hd, if_neg hf]

/-- Settles O38: for a register other than VF the frame of `exec` has no flag to except. -/
theorem registersChangeOnlyAsDestination : Obligations.RegistersChangeOnlyAsDestination :=
  fun _ _ _ _ h hr hd => exec_getV_frame h hd fun hf => hr hf.2

/-- Settles O37: the flag clause comes from a completed instruction, which writes VF as R21 allows it. -/
theorem vfIsWrittenOnlyAsFlagOrDestination : Obligations.VfIsWrittenOnlyAsFlagOrDestination := by
  refine ⟨fun i s t h hf hd => exec_getV_frame h hd (by simp [hf]), fun i s t h hr hf hd => ?_, rfl⟩
  obtain ⟨hraise, _⟩ | ⟨flag, hregs⟩ := (exec_effect h).writesRegs
  · exact absurd hr hraise
  · rw [hregs vf hd, if_pos ⟨hf, rfl⟩]
    exact flagByte_eq_zero_or_one flag

/-! ### The other pieces of state -/

/-- Settles O39: each kind of effect names what it writes, and by which instructions. -/
theorem eachStateHasItsWriters : Obligations.EachStateHasItsWriters := by
  intro i s t h
  cases exec_effect h with
  | draws v fb hi _ => simp [hi]
  | index idx hi => simp [hi]
  | stores bs hi _ => simp [hi]
  | _ => simp

/-- Settles O40: every kind of effect but the wait of LD Vx,K, the jumps and the fatal error ends with the increment. -/
theorem incrementStep : Obligations.IncrementStep := by
  intro i s t hr h
  cases exec_effect h with
  | fails => simp
  | waits x => exact ⟨fun _ => rfl, fun _ _ => .inr ⟨⟨x, rfl⟩, rfl, rfl⟩⟩
  | jumps target hcf _ => simp [hr, hcf]
  | calls => simp [hr, Instr.isControlFlow]
  | returns => simp [hr, Instr.isControlFlow]
  | _ => exact ⟨fun hh => by simp [hr] at hh, fun _ _ => .inl rfl⟩

/-! ### The sound timer -/

theorem State.loadRegs_st_update (b : Byte) (bs : List Byte) : ∀ (s : State) (k : Nat),
    ({ s with st := b } : State).loadRegs k bs = { s.loadRegs k bs with st := b } := by
  induction bs with
  | nil => intro s k; rfl
  | cons c bs ih => intro s k; exact ih (s.setV (BitVec.ofNat 4 k) c) (k + 1)

/-- The range check of a memory instruction carries ST along where its completed state does. -/
theorem checkRange_st_update {n : Nat} {u u' : State} (b : Byte) (h : s.checkRange i n u = .next t)
    (hu : u' = { u with st := b }) : ({ s with st := b } : State).checkRange i n u' = .next { t with st := b } := by
  obtain ⟨a, ha, rfl⟩ | ⟨hn, rfl⟩ := State.checkRange_next.mp h
  · exact State.checkRange_next.mpr (.inl ⟨a, ha, rfl⟩)
  · exact State.checkRange_next.mpr (.inr ⟨hn, hu.symm⟩)

/-- Every instruction but LD ST,Vx carries ST along unread. -/
theorem exec_st_update (b : Byte) (hi : ∀ x, i ≠ .ldSTVx x) (h : exec i s = .next t) :
    exec i { s with st := b } = .next { t with st := b } := by
  cases i with
  | ldSTVx x => exact absurd rfl (hi x)
  | ret ign =>
    obtain ⟨h0, rfl⟩ | ⟨k, hk, rfl⟩ := exec_ret_next.mp h
    · exact exec_ret_next.mpr (.inl ⟨h0, rfl⟩)
    · exact exec_ret_next.mpr (.inr ⟨k, hk, rfl⟩)
  | call nnn =>
    obtain ⟨h16, rfl⟩ | ⟨hlt, rfl⟩ := exec_call_next.mp h
    · exact exec_call_next.mpr (.inl ⟨h16, rfl⟩)
    · exact exec_call_next.mpr (.inr ⟨hlt, rfl⟩)
  | ldVxK x =>
    obtain ⟨hn, rfl⟩ | ⟨k, hk, rfl⟩ := exec_ldVxK_next.mp h
    · exact exec_ldVxK_next.mpr (.inl ⟨hn, rfl⟩)
    · exact exec_ldVxK_next.mpr (.inr ⟨k, hk, rfl⟩)
  | drw x y n =>
    rw [exec_drw] at h ⊢
    exact checkRange_st_update b h rfl
  | ldB x =>
    rw [exec_ldB] at h ⊢
    exact checkRange_st_update b h rfl
  | ldMemVx x =>
    rw [exec_ldMemVx] at h ⊢
    exact checkRange_st_update b h rfl
  | ldVxMem x =>
    rw [exec_ldVxMem] at h ⊢
    exact checkRange_st_update b h (congrArg State.advance (State.loadRegs_st_update b _ s 0))
  | _ => cases h; rfl

/-- Settles O42: every other instruction carries ST along; LD ST,Vx reads a register only, so both runs are the same one. -/
theorem soundTimerIsNeverReadBack : Obligations.SoundTimerIsNeverReadBack := by
  refine fun i s t b h => ⟨fun hi => exec_st_update b hi h, ?_⟩
  rintro ⟨x, rfl⟩
  exact h

/-! ### Ticks -/

theorem tickTimer_toNat (b : Byte) : (tickTimer b).toNat = b.toNat - 1 := by
  unfold tickTimer
  split
  next h => simp [h]
  next h =>
    have hne : b.toNat ≠ 0 := fun h0 => h (BitVec.eq_of_toNat_eq h0)
    have hlt := b.isLt
    simp; omega

theorem State.ticks_timers (n : Nat) : ∀ s : State,
    (State.ticks n s).dt.toNat = s.dt.toNat - n ∧ (State.ticks n s).st.toNat = s.st.toNat - n := by
  induction n with
  | zero => exact fun s => ⟨rfl, rfl⟩
  | succ n ih =>
    intro s
    obtain ⟨hdt, hst⟩ := ih s.tick
    rw [State.tick_dt, tickTimer_toNat] at hdt
    rw [State.tick_st, tickTimer_toNat] at hst
    exact ⟨by rw [State.ticks, hdt]; omega, by rw [State.ticks, hst]; omega⟩

/-- Settles O34, by induction on the number of ticks. -/
theorem ticksSaturateAtZero : Obligations.TicksSaturateAtZero :=
  fun n s => ⟨_, rfl, State.ticks_frame n s, State.ticks_timers n s⟩

end Sys2Proof.Machine

/-! SUPPORT. What reset and launch leave, as the statements about them read it (10_state.md R46; 70_reset_and_hazards.md R250 to
R257). -/

namespace Sys2Proof.Machine

variable (font : Config.Font) (s : State)

@[simp] theorem State.reset_getV (r : Nibble) : State.reset.getV r = 0 := by simp [State.getV, State.reset]

theorem State.reset_stack_getElem (k : Fin 16) : State.reset.stack[k] = 0 := by simp [State.reset]

/-- Settles O57: the fields by the definition of reset, the font and the zero bytes by the laws of `fontMemory`. -/
theorem resetValues : Obligations.ResetValues := by
  intro font s
  refine ⟨_, rfl, ?_, rfl, rfl, rfl, ?_, rfl, rfl, rfl, rfl, rfl, rfl, rfl, rfl, rfl, rfl, ?_, ?_, ?_⟩
  · exact State.reset_getV
  · exact State.reset_stack_getElem
  · exact Framebuffer.cell_off
  · exact peek_fontMemory_font font
  · exact fun a ha => peek_fontMemory_zero font ha

/-- A memory with no cell listed holds the default FONT (R41). -/
theorem fontMemory_eq_nil_iff : fontMemory font = [] ↔ font = Config.defaultFont := by
  have hdefault : fontMemory Config.defaultFont = [] := by decide
  refine ⟨fun h => Vector.ext fun a ha => ?_, fun h => h ▸ hdefault⟩
  calc font[a] = Memory.peek (fontMemory font) a := (peek_fontMemory_font font ⟨a, ha⟩).symm
    _ = Memory.peek (fontMemory Config.defaultFont) a := by rw [h, hdefault]
    _ = Config.defaultFont[a] := peek_fontMemory_font Config.defaultFont ⟨a, ha⟩

/-- Settles O58: of the reset state only memory depends on FONT, and only the default lists no cell. -/
theorem resetStateIsDefaultFont : Obligations.ResetStateIsDefaultFont := by
  intro font
  rw [← fontMemory_eq_nil_iff]
  constructor
  · exact fun h => congrArg State.mem h
  · intro h
    simp only [State.hostReset, h]
    rfl

/-- Settles O59: the program is written beside the font, inside memory, so each byte is read from the one or the other. -/
theorem launchState : Obligations.LaunchState := by
  intro font s prog
  have hwf := fontMemory_wf font
  refine ⟨fun hl => ?_, fun hl => if_pos hl, rfl⟩
  have hfit : Config.progBase + prog.length ≤ Config.memSize := by simp only [Config.progBase, Config.memSize]; omega
  refine ⟨_, if_neg (Nat.not_lt.mpr hl), rfl, ?_, fun a => ?_, fun k hk => ?_, fun a ha hout => ?_⟩
  · exact Nat.mod_eq_of_lt (by omega)
  · have hlow : a.val < Config.progBase := by simp only [Config.progBase]; omega
    exact (peek_writeBlock_outside hfit hwf (.inl hlow)).trans (peek_fontMemory_font font a)
  · exact peek_writeBlock_at hfit hwf hk
  · exact (peek_writeBlock_outside hfit hwf hout).trans (peek_fontMemory_zero font ha)

/-- Every reset gives a state of the invariant (R250). -/
theorem State.hostReset_inv : (s.hostReset font).Inv where
  mem_wf := fontMemory_wf font
  sp_le := Nat.zero_le _
  stack_le k := by
    rw [State.hostReset_stack, State.reset_stack_getElem]
    exact Nat.zero_le _
  pc_le := show (BitVec.ofNat 16 Config.progBase).toNat ≤ 0x10FE by decide
  progSize_le := Nat.zero_le _
  dirty_clear := rfl
  cause_none := by simp
  record := ⟨rfl, rfl, rfl⟩
  ended := nofun
  wait_at_key := nofun

/-- Settles O53: State.reset is the reset with the default FONT. -/
theorem invariantHoldsAtReset : Obligations.InvariantHoldsAtReset := by
  have h := State.hostReset_inv Config.defaultFont State.reset
  rwa [(resetStateIsDefaultFont Config.defaultFont).mpr rfl] at h

end Sys2Proof.Machine

/-! SUPPORT. Memory as the statements of 20_memory.md read it: the two primitives (R52, R53), the word a fetch gives (R54, R195), and
a store over the next instruction (R63). -/

namespace Sys2Proof.Machine

variable {s : State} {x : Nibble}

/-! ### The two primitives, and the fetch -/

/-- The byte at the lower address is the high one (R54). -/
theorem wordOfBytes_toNat (hi lo : Byte) : (wordOfBytes hi lo).toNat = hi.toNat * 256 + lo.toNat := toNat_append hi lo

/-- Settles O6: each clause is the law of `memRead1` or `memRead2` for its side of the boundary. -/
theorem memReadContract : Obligations.MemReadContract := by
  refine fun m a => ⟨memRead1_ok, memRead1_error, fun h => ⟨_, memRead2_ok h, wordOfBytes_toNat _ _⟩, ?_, fun h => ?_⟩
  · rintro rfl
    exact memRead2_error (by decide)
  · rw [memRead2_error (by omega), Nat.max_eq_left h]

theorem memWrite1_ok {m : Memory} {a : Nat} (v : Byte) (h : a < 4096) : memWrite1 m a v = .ok (Memory.poke m a v) :=
  if_neg (Nat.not_le.mpr h)

theorem memWrite1_error {m : Memory} {a : Nat} (v : Byte) (h : 4096 ≤ a) : memWrite1 m a v = .error a := if_pos h

/-- Settles O7: inside memory the write is `Memory.poke`, whose laws say the rest. -/
theorem memWriteContract : Obligations.MemWriteContract := fun _ _ v hm =>
  ⟨memWrite1_error v, fun ha =>
    ⟨_, memWrite1_ok v ha, Memory.poke_wf ha hm, Memory.peek_poke_same hm, fun _ hb => Memory.peek_poke_other hm hb⟩⟩

/-- Settles O43: the fetch is the two-byte read at pc. -/
theorem fetchReadsBigEndian : Obligations.FetchReadsBigEndian := by
  intro s
  obtain ⟨_, _, hword, hlast, hout⟩ := memReadContract s.mem s.pc.toNat
  exact ⟨fun h => hword (by omega), hlast, hout⟩

/-! ### Stores into the instruction stream -/

/-- The state after a LD [I],Vx that completes (R145). -/
def State.dumpRegs (s : State) (x : Nibble) : State :=
  { s with mem := writeBlock s.mem s.idx.toNat (s.firstRegs x) }.advance

theorem exec_ldMemVx_of_fits (h : s.idx.toNat + x.toNat < 4096) : exec (.ldMemVx x) s = .next (s.dumpRegs x) :=
  (exec_ldMemVx x s).trans (State.checkRange_next.mpr (.inr ⟨rangeFault_none.mpr (.inr h), rfl⟩))

/-- The register dump leaves V0 to Vx from I on (R145). -/
theorem State.readByte_dumpRegs (hm : Memory.wf s.mem = true) (h : s.idx.toNat + x.toNat < 4096) {r : Nibble}
    (hr : r.toNat ≤ x.toNat) : (s.dumpRegs x).readByte (s.idx.toNat + r.toNat) = s.getV r := by
  have hfit : s.idx.toNat + (s.firstRegs x).length ≤ Config.memSize := by rw [State.firstRegs_length]; exact h
  have hlen : r.toNat < (s.firstRegs x).length := by rw [State.firstRegs_length]; omega
  calc (s.dumpRegs x).readByte (s.idx.toNat + r.toNat)
    _ = (s.firstRegs x)[r.toNat] := peek_writeBlock_at hfit hm hlen
    _ = s.getV r := by rw [State.firstRegs_getElem, BitVec.ofNat_toNat, BitVec.setWidth_eq]

/-- Settles O26: the dump puts V0 and V1 where the new pc points, and the fetch reads those two bytes. -/
theorem storeSeenByNextFetch : Obligations.StoreSeenByNextFetch := by
  intro x s hm hx hidx hfit
  have hpc : (s.dumpRegs x).pc.toNat = s.idx.toNat := by
    change (s.pc + 2).toNat = _
    rw [BitVec.toNat_add_of_lt (by simp; omega), hidx]
    rfl
  obtain ⟨w, hw, hval⟩ := (fetchReadsBigEndian (s.dumpRegs x)).1 (by omega)
  have h0 : (s.dumpRegs x).readByte s.idx.toNat = s.getV 0 := State.readByte_dumpRegs hm hfit (r := 0) (Nat.zero_le _)
  have h1 : (s.dumpRegs x).readByte (s.idx.toNat + 1) = s.getV 1 := State.readByte_dumpRegs hm hfit (r := 1) hx
  exact ⟨_, w, exec_ldMemVx_of_fits hfit, hw, by rw [hval, hpc, h0, h1]⟩

/-! ### Words of the decode table -/

/-- Settles O4, by decoding each of the fixed words. -/
theorem specWordsDecode : Obligations.SpecWordsDecode := by
  unfold Obligations.SpecWordsDecode
  decide

end Sys2Proof.Machine

/-! SUPPORT. The encoding (30_encoding.md R71 to R85): the row of each instruction and the instruction of each row, the two round
trips, and the fields of a word. -/

namespace Sys2Proof.Machine

variable {w : Word} {i : Instr}

/-! ### The fields of a word -/

/-- Settles O5: each field is a quotient or a remainder of the word, which is `hi * 256 + lo`. -/
theorem fieldsOfTheWord : Obligations.FieldsOfTheWord := by
  rintro hi lo w rfl
  have hw := wordOfBytes_toNat hi lo
  have hhi := hi.isLt
  have hlo := lo.isLt
  have hbyte : lo = nnField (wordOfBytes hi lo) := BitVec.eq_of_toNat_eq (by rw [toNat_nnField]; omega)
  refine ⟨hw, toNat_opField _, toNat_xField _, toNat_yField _, toNat_nField _, ?_, ?_, ?_, hbyte⟩
  · rw [toNat_nnField, toNat_yField, toNat_nField]; omega
  · rw [toNat_nnnField, toNat_xField, toNat_nnField]; omega
  · rw [toNat_opField, toNat_xField]; omega

/-! ### A word as its fields put together, per format of R72 -/

theorem opField_append_nnnField (w : Word) : opField w ++ nnnField w = w := by
  apply BitVec.eq_of_toNat_eq
  simp only [toNat_append, toNat_opField, toNat_nnnField]; omega

theorem opField_append_midField_append_nField (w : Word) : opField w ++ midField w ++ nField w = w := by
  apply BitVec.eq_of_toNat_eq
  simp only [toNat_append, toNat_opField, toNat_midField, toNat_nField]; omega

theorem opField_append_xField_append_nnField (w : Word) : opField w ++ xField w ++ nnField w = w := by
  apply BitVec.eq_of_toNat_eq
  simp only [toNat_append, toNat_opField, toNat_xField, toNat_nnField]; omega

theorem opField_append_xField_append_yField_append_nField (w : Word) :
    opField w ++ xField w ++ yField w ++ nField w = w := by
  apply BitVec.eq_of_toNat_eq
  simp only [toNat_append, toNat_opField, toNat_xField, toNat_yField, toNat_nField]; omega

/-! ### From a word to its instruction and back -/

theorem decode_ok_iff : decode w = .ok i ↔ decodeFields w = some i := by
  unfold decode
  cases decodeFields w <;> simp

theorem decode_error {e : DecodeError} (h : decode w = .error e) : e = .unknownOpcode w := by
  unfold decode at h
  cases hf : decodeFields w with
  | some i => rw [hf] at h; cases h
  | none => rw [hf] at h; cases h; rfl

theorem encode_of_decodeGroup0 {mid : Byte} {n : Nibble} (h : decodeGroup0 mid n = some i) :
    encode i = 0x0#4 ++ mid ++ n := by
  unfold decodeGroup0 at h
  split at h <;> cases h <;> rfl

theorem encode_of_decodeGroup8 {x y n : Nibble} (h : decodeGroup8 x y n = some i) :
    encode i = 0x8#4 ++ x ++ y ++ n := by
  unfold decodeGroup8 at h
  split at h <;> cases h <;> rfl

theorem encode_of_decodeGroupE {x y n : Nibble} (h : decodeGroupE x y n = some i) :
    encode i = 0xE#4 ++ x ++ y ++ n := by
  unfold decodeGroupE at h
  split at h <;> cases h <;> rfl

theorem encode_of_decodeGroupF {x : Nibble} {nn : Byte} (h : decodeGroupF x nn = some i) :
    encode i = 0xF#4 ++ x ++ nn := by
  unfold decodeGroupF at h
  split at h <;> cases h <;> rfl

/-- Settles O2: in each group of R74 the encoding puts the word's own fields together again. -/
theorem encodeDecodeRoundTrip : Obligations.EncodeDecodeRoundTrip := by
  intro w i h
  have hA := opField_append_nnnField w
  have hXI := opField_append_xField_append_nnField w
  have hXYN := opField_append_xField_append_yField_append_nField w
  rw [decode_ok_iff, decodeFields] at h
  split at h
  next hop => rw [encode_of_decodeGroup0 h, ← hop, opField_append_midField_append_nField]
  next hop => cases h; rwa [hop] at hA
  next hop => cases h; rwa [hop] at hA
  next hop => cases h; rwa [hop] at hXI
  next hop => cases h; rwa [hop] at hXI
  next hop => cases h; rwa [hop] at hXYN
  next hop => cases h; rwa [hop] at hXI
  next hop => cases h; rwa [hop] at hXI
  next hop => rwa [encode_of_decodeGroup8 h, ← hop]
  next hop => cases h; rwa [hop] at hXYN
  next hop => cases h; rwa [hop] at hA
  next hop => cases h; rwa [hop] at hA
  next hop => cases h; rwa [hop] at hXI
  next hop => cases h; rwa [hop] at hXYN
  next hop => rwa [encode_of_decodeGroupE h, ← hop]
  next hop => rwa [encode_of_decodeGroupF h, ← hop]
  next => cases h

/-! ### The rows of R83 -/

/-- A row that `op` alone selects. -/
theorem EncodedAs.of_op {p : Word} {build : Word → Instr}
    (h : ∀ w, opField w = opField p → decodeFields w = some (build w)) : EncodedAs 0xF000 p build :=
  fun w hw => decode_ok_iff.mpr (h w (op_of_mask hw))

/-- A row that `op` and `n` select. -/
theorem EncodedAs.of_op_n {p : Word} {build : Word → Instr}
    (h : ∀ w, opField w = opField p ∧ nField w = nField p → decodeFields w = some (build w)) : EncodedAs 0xF00F p build :=
  fun w hw => decode_ok_iff.mpr (h w (op_n_of_mask hw))

/-- A row that `op` and `nn` select. -/
theorem EncodedAs.of_op_nn {p : Word} {build : Word → Instr}
    (h : ∀ w, opField w = opField p ∧ nnField w = nnField p → decodeFields w = some (build w)) : EncodedAs 0xF0FF p build :=
  fun w hw => decode_ok_iff.mpr (h w (op_nn_of_mask hw))

/-- The dispatch of R74 answers for each row of R83 with the row's instruction: what the row selects by fixes the arm. -/
theorem encodedAs_of_mem_opcodeTable : ∀ r ∈ opcodeTable, EncodedAs r.mask r.pattern r.build := by
  simp only [opcodeTable, List.cons_append, List.nil_append, List.forall_mem_cons]
  refine ⟨.of_op_n ?_, .of_op_n ?_,
    .of_op ?_, .of_op ?_, .of_op ?_, .of_op ?_, .of_op ?_, .of_op ?_, .of_op ?_,
    .of_op_n ?_, .of_op_n ?_, .of_op_n ?_, .of_op_n ?_, .of_op_n ?_, .of_op_n ?_, .of_op_n ?_, .of_op_n ?_, .of_op_n ?_,
    .of_op ?_, .of_op ?_, .of_op ?_, .of_op ?_, .of_op ?_,
    .of_op_n ?_, .of_op_n ?_,
    .of_op_nn ?_, .of_op_nn ?_, .of_op_nn ?_, .of_op_nn ?_, .of_op_nn ?_, .of_op_nn ?_, .of_op_nn ?_, .of_op_nn ?_,
    .of_op_nn ?_, nofun⟩
  all_goals
    intro w hkey
    simp only [decodeFields, hkey]
    rfl

/-- Every instruction's encoding lies in a row that reads the instruction back: the family TableRow, for all instructions. -/
theorem encode_mem_opcodeTable : ∀ i : Instr, Laws.TableRow.Statement i
  | .cls ign => Laws.TableRow.cls ign
  | .ret ign => Laws.TableRow.ret ign
  | .jp nnn => Laws.TableRow.jp nnn
  | .call nnn => Laws.TableRow.call nnn
  | .seImm x nn => Laws.TableRow.seImm x nn
  | .sneImm x nn => Laws.TableRow.sneImm x nn
  | .seReg x y ign => Laws.TableRow.seReg x y ign
  | .ldImm x nn => Laws.TableRow.ldImm x nn
  | .addImm x nn => Laws.TableRow.addImm x nn
  | .ldReg x y => Laws.TableRow.ldReg x y
  | .orReg x y => Laws.TableRow.orReg x y
  | .andReg x y => Laws.TableRow.andReg x y
  | .xorReg x y => Laws.TableRow.xorReg x y
  | .addReg x y => Laws.TableRow.addReg x y
  | .subReg x y => Laws.TableRow.subReg x y
  | .shr x y => Laws.TableRow.shr x y
  | .subnReg x y => Laws.TableRow.subnReg x y
  | .shl x y => Laws.TableRow.shl x y
  | .sneReg x y ign => Laws.TableRow.sneReg x y ign
  | .ldI nnn => Laws.TableRow.ldI nnn
  | .jpV0 nnn => Laws.TableRow.jpV0 nnn
  | .rnd x nn => Laws.TableRow.rnd x nn
  | .drw x y n => Laws.TableRow.drw x y n
  | .skp x ign => Laws.TableRow.skp x ign
  | .sknp x ign => Laws.TableRow.sknp x ign
  | .ldVxDT x => Laws.TableRow.ldVxDT x
  | .ldVxK x => Laws.TableRow.ldVxK x
  | .ldDTVx x => Laws.TableRow.ldDTVx x
  | .ldSTVx x => Laws.TableRow.ldSTVx x
  | .addI x => Laws.TableRow.addI x
  | .ldF x => Laws.TableRow.ldF x
  | .ldB x => Laws.TableRow.ldB x
  | .ldMemVx x => Laws.TableRow.ldMemVx x
  | .ldVxMem x => Laws.TableRow.ldVxMem x

/-- Settles O1: the row that the encoding lies in is the row the decoder follows. -/
theorem decodeEncodeRoundTrip : Obligations.DecodeEncodeRoundTrip := by
  intro i
  obtain ⟨r, hr, hsel, hbuild⟩ := encode_mem_opcodeTable i
  rw [encodedAs_of_mem_opcodeTable r hr _ hsel, hbuild]

/-- Settles O3. A word that decodes is the encoding of its instruction (O2), so it lies in that instruction's row. -/
theorem decodeFollowsOpcodeTable : Obligations.DecodeFollowsOpcodeTable := by
  refine ⟨rfl, fun w => ⟨fun r hr => encodedAs_of_mem_opcodeTable r hr w, fun hnone => ?_⟩⟩
  cases hd : decode w with
  | error e => rw [decode_error hd]
  | ok i =>
    obtain ⟨r, hr, hsel, _⟩ := encode_mem_opcodeTable i
    rw [encodeDecodeRoundTrip w i hd] at hsel
    exact absurd hsel (hnone r hr)

end Sys2Proof.Machine

/-! SUPPORT. The step is total (45_execution_loop.md R190, R205): an equation per case of a step, and that every instruction answers a
next state while SP is legal. -/

namespace Sys2Proof.Machine

variable {s u : State} {i : Instr} {w : Word}

/-! ### The cases of a step, as equations -/

theorem step_of_halted (h : s.status = .halted) : step s = .next s.beginStep.endStep := by
  simp only [step, stepWith, h]

theorem step_of_abort (hr : s.status = .running) (ha : s.input.abort = true) :
    step s = .next (s.beginStep.haltWith .abort).endStep := by
  simp only [step, stepWith, hr, ha, if_true]

theorem step_of_pastEnd (hr : s.status = .running) (ha : s.input.abort = false) (hp : s.pastEnd = true) :
    step s = .next (s.beginStep.haltWith .endOfProgram).endStep := by
  simp [step, stepWith, hr, ha, hp]

theorem step_of_fetch_error {a : Nat} (h : s.AboutToFetch) (hf : s.fetch = .error a) :
    step s = .next (s.beginStep.takeFatal .addressOutOfRange 0 a).endStep := by
  obtain ⟨hr, ha, hp⟩ := h
  simp [step, stepWith, hr, ha, hp, hf]

theorem step_of_decode_error {e : DecodeError} (h : s.AboutToFetch) (hf : s.fetch = .ok w) (hd : decode w = .error e) :
    step s = .next (execUnknown w s.beginStep).endStep := by
  obtain ⟨hr, ha, hp⟩ := h
  simp [step, stepWith, hr, ha, hp, hf, hd]

theorem step_of_exec (h : s.AboutToFetch) (hf : s.fetch = .ok w) (hd : decode w = .ok i)
    (hx : exec i s.beginStep = .next u) : step s = .next u.endStep := by
  obtain ⟨hr, ha, hp⟩ := h
  simp [step, stepWith, hr, ha, hp, hf, hd, hx]

/-! ### Totality -/

theorem State.checkRange_total (s : State) (i : Instr) (n : Nat) (u : State) : ∃ t, s.checkRange i n u = .next t := by
  unfold State.checkRange
  cases rangeFault (s.ea 0) n with
  | some a => exact ⟨_, rfl⟩
  | none => exact ⟨u, rfl⟩

/-- With SP at most 16 no instruction meets the model's own fault (log entry 6). -/
theorem exec_total (i : Instr) (h : s.sp.toNat ≤ 16) : ∃ t, exec i s = .next t := by
  cases i with
  | call nnn =>
    obtain hlt | h16 := Nat.lt_or_eq_of_le h
    · exact ⟨_, exec_call_next.mpr (.inr ⟨hlt, rfl⟩)⟩
    · exact ⟨_, exec_call_next.mpr (.inl ⟨h16, rfl⟩)⟩
  | ret ign =>
    cases hsp : s.sp.toNat with
    | zero => exact ⟨_, exec_ret_next.mpr (.inl ⟨hsp, rfl⟩)⟩
    | succ k => exact ⟨_, exec_ret_next.mpr (.inr ⟨⟨k, by omega⟩, hsp, rfl⟩)⟩
  | ldVxK x =>
    cases hk : s.input.keyEvt with
    | none => exact ⟨_, exec_ldVxK_next.mpr (.inl ⟨hk, rfl⟩)⟩
    | some k => exact ⟨_, exec_ldVxK_next.mpr (.inr ⟨k, hk, rfl⟩)⟩
  | drw x y n => rw [exec_drw]; exact s.checkRange_total _ _ _
  | ldB x => rw [exec_ldB]; exact s.checkRange_total _ _ _
  | ldMemVx x => rw [exec_ldMemVx]; exact s.checkRange_total _ _ _
  | ldVxMem x => rw [exec_ldVxMem]; exact s.checkRange_total _ _ _
  | _ => exact ⟨_, rfl⟩

/-- Settles O56: every case of R205 before the instruction has a next state, and the instruction has one while SP is legal. -/
theorem stepIsTotalUnderInvariant : Obligations.StepIsTotalUnderInvariant := by
  intro s h
  cases hr : s.status with
  | halted => exact ⟨_, step_of_halted hr⟩
  | running =>
    cases ha : s.input.abort with
    | true => exact ⟨_, step_of_abort hr ha⟩
    | false =>
      cases hp : s.pastEnd with
      | true => exact ⟨_, step_of_pastEnd hr ha hp⟩
      | false =>
        have hb : s.AboutToFetch := ⟨hr, ha, hp⟩
        cases hf : s.fetch with
        | error a => exact ⟨_, step_of_fetch_error hb hf⟩
        | ok w =>
          cases hd : decode w with
          | error e => exact ⟨_, step_of_decode_error hb hf hd⟩
          | ok i =>
            obtain ⟨u, hx⟩ := exec_total (s := s.beginStep) i h.sp_le
            exact ⟨_, step_of_exec hb hf hd hx⟩

end Sys2Proof.Machine

/-! SUPPORT. Control flow (40_control_flow.md R100 to R109): the rows of R83 by number, what a skip and the two stack operations
leave, and from them jumps, skips, CALL and RET. -/

namespace Sys2Proof.Machine

variable {s : State}

/-! ### Encodings and skips -/

/-- A row of R83, named by its number, is an encoding. -/
theorem encodedAs_of_row (k : Nat) (h : k < opcodeTable.length) :
    EncodedAs opcodeTable[k].mask opcodeTable[k].pattern opcodeTable[k].build :=
  encodedAs_of_mem_opcodeTable _ (List.getElem_mem h)

/-- The state a skip leaves, its condition read as a proposition (R100). -/
theorem State.jump_skipTarget {c : Bool} {p : Prop} [Decidable p] (h : c = true ↔ p) :
    s.jump (s.skipTarget c) = { s with pc := if p then s.pc + 4 else s.pc + 2 } := by
  simp only [State.jump, State.skipTarget_eq, h]

/-- Settles O13: rows 4 and 5 of R83, and a comparison as the condition of a skip. -/
theorem literalSkips : Obligations.LiteralSkips :=
  ⟨encodedAs_of_row 4 (by decide), encodedAs_of_row 5 (by decide), fun _ _ _ =>
    ⟨congrArg Host.Outcome.next (State.jump_skipTarget beq_iff_eq),
      congrArg Host.Outcome.next (State.jump_skipTarget bne_iff_ne)⟩⟩

/-- Settles O14: the ignored nibble takes no part in the meaning. -/
theorem registerSkips : Obligations.RegisterSkips := fun _ _ _ _ =>
  ⟨congrArg Host.Outcome.next (State.jump_skipTarget beq_iff_eq),
    congrArg Host.Outcome.next (State.jump_skipTarget bne_iff_ne)⟩

/-! ### Jumps -/

/-- Settles O8: row 2 of R83, and the literal is zero-extended. -/
theorem jumpSetsPcExactly : Obligations.JumpSetsPcExactly :=
  ⟨encodedAs_of_row 2 (by decide), fun nnn _ => ⟨_, rfl, rfl, zext16_toNat nnn⟩⟩

/-- Settles O9: the sum does not wrap. -/
theorem computedJumpAddsV0 : Obligations.ComputedJumpAddsV0 :=
  fun nnn s => ⟨_, rfl, rfl, s.offsetTarget_toNat nnn⟩

/-! ### CALL and RET -/

/-- On a stack that is not full the count of a push does not wrap (R26). -/
theorem State.pushPc_sp_toNat (h : s.sp.toNat < 16) : (s.pushPc h).sp.toNat = s.sp.toNat + 1 := by
  rw [State.pushPc_sp, BitVec.toNat_add_of_lt (by simp; omega)]
  rfl

theorem State.pushPc_stack_getElem (h : s.sp.toNat < 16) (k : Fin 16) :
    (s.pushPc h).stack[k] = if k.val = s.sp.toNat then s.pc else s.stack[k] := by
  simp only [State.pushPc_stack, Fin.getElem_fin, Vector.getElem_set, eq_comm]

/-- On a stack that is not empty a pop counts down by one (R26). -/
theorem State.popStack_sp_toNat {k : Nat} (h : s.sp.toNat = k + 1) : s.popStack.sp.toNat = k := by
  have hlt := s.sp.isLt
  simp; omega

/-- A push and a pop leave the pushed pc in the free slot, and all else as it was (R27). -/
theorem State.pushPc_jump_popStack (h : s.sp.toNat < 16) (target : Word) :
    ((s.pushPc h).jump target).popStack = { s with pc := target, stack := s.stack.set s.sp.toNat s.pc h } := by
  simp only [State.popStack, State.jump, State.pushPc, BitVec.add_sub_cancel]

/-- Settles O10: a push and a jump below 16, and the fatal error at 16. -/
theorem callPushesOrOverflows : Obligations.CallPushesOrOverflows := by
  intro nnn s
  constructor
  · intro h
    exact ⟨_, exec_call_next.mpr (.inr ⟨h, rfl⟩), rfl, zext16_toNat nnn, State.pushPc_sp_toNat h,
      State.pushPc_stack_getElem h⟩
  · exact fun h => exec_call_next.mpr (.inl ⟨h, rfl⟩)

/-- Settles O11: a pop and a jump above 0, and the fatal error at 0. -/
theorem returnPopsOrUnderflows : Obligations.ReturnPopsOrUnderflows := by
  intro ign s
  constructor
  · intro k h
    exact ⟨_, exec_ret_next.mpr (.inr ⟨k, h, rfl⟩), rfl, rfl, State.popStack_sp_toNat h⟩
  · exact fun h => exec_ret_next.mpr (.inl ⟨h, rfl⟩)

/-- Settles O12: RET finds in the slot just pushed the address of the CALL. -/
theorem callReturnRoundTrip : Obligations.CallReturnRoundTrip := by
  intro nnn ign s h
  refine ⟨_, _, exec_call_next.mpr (.inr ⟨h, rfl⟩),
    exec_ret_next.mpr (.inr ⟨⟨s.sp.toNat, h⟩, State.pushPc_sp_toNat h, rfl⟩), ?_⟩
  rw [State.pushPc_jump_popStack, State.jump_stack, State.pushPc_stack_getElem, if_pos rfl]
  rfl

end Sys2Proof.Machine

/-! SUPPORT. The register, arithmetic, logic, shift and random instructions (41_alu.md R120 to R133): what a flag and result
write leaves in each register, the flags as numbers, and from them each instruction's result and frame. -/

namespace Sys2Proof.Machine

/-! ### Flag and result -/

/-- An instruction that writes flag and result (R120): what is read of the result holds of Vx, what is read of the flag holds of VF
unless Vx is VF, and all else but pc stays. -/
theorem exec_flagThenResult {α β : Type} {i : Instr} {s : State} {x : Nibble} {f b : Byte}
    (h : exec i s = .next (s.setFlagThenResult x f b).advance)
    (readResult : Byte → α) {result : α} (hresult : readResult b = result)
    (readFlag : Byte → β) {flag : β} (hflag : readFlag f = flag) :
    ∃ t, exec i s = .next t ∧ t = { s with v := t.v, pc := s.pc + 2 } ∧ readResult (t.getV x) = result ∧
      (x ≠ vf → readFlag (t.getV vf) = flag) ∧ ∀ r, r ≠ x → r ≠ vf → t.getV r = s.getV r := by
  refine ⟨_, h, rfl, ?_, fun hx => ?_, fun r hx hf => ?_⟩
  · rw [State.getV_advance, State.getV_setFlagThenResult, if_pos rfl, hresult]
  · rw [State.getV_advance, State.getV_setFlagThenResult, if_neg hx.symm, if_pos rfl, hflag]
  · rw [State.getV_advance, State.getV_setFlagThenResult, if_neg hx, if_neg hf]

/-! ### Flags and results as numbers -/

theorem carryFlag_eq (a b : Byte) : carryFlag a b = if 255 < a.toNat + b.toNat then 1 else 0 := by
  simp only [carryFlag, flagByte, decide_eq_true_eq]

theorem noBorrowFlag_eq (a b : Byte) : noBorrowFlag a b = if b.toNat ≤ a.toNat then 1 else 0 := by
  simp only [noBorrowFlag, flagByte, decide_eq_true_eq]

theorem flagByte_toNat (c : Bool) : (flagByte c).toNat = c.toNat := by cases c <;> rfl

/-- The flag of SHR is the remainder of the halving (R130). -/
theorem shrFlag_toNat (b : Byte) : (shrFlag b).toNat = b.toNat % 2 := by
  rw [shrFlag, flagByte_toNat, BitVec.getLsbD, Nat.toNat_testBit, Nat.pow_zero, Nat.div_one]

/-- The flag of SHL is the carry of the doubling (R131). -/
theorem shlFlag_toNat (b : Byte) : (shlFlag b).toNat = b.toNat / 128 := by
  have := b.isLt
  rw [shlFlag, flagByte_toNat, BitVec.getLsbD, Nat.toNat_testBit]
  omega

/-- A difference modulo 256, with the borrow added first (R128, R129). -/
theorem byte_toNat_sub (a b : Byte) : (a - b).toNat = (a.toNat + 256 - b.toNat) % 256 := by
  have := b.isLt
  rw [BitVec.toNat_sub]
  omega

theorem byte_toNat_ushiftRight_one (b : Byte) : (b >>> 1).toNat = b.toNat / 2 := by
  rw [BitVec.toNat_ushiftRight, Nat.shiftRight_eq_div_pow, Nat.pow_one]

theorem byte_toNat_shiftLeft_one (b : Byte) : (b <<< 1).toNat = b.toNat * 2 % 256 := by
  rw [BitVec.toNat_shiftLeft, Nat.shiftLeft_eq, Nat.pow_one]

/-! ### Instructions that write VF -/

/-- Settles O17: the write order of R120, with the carry or the missing borrow as the flag. -/
theorem addAndSubtractWithFlag : Obligations.AddAndSubtractWithFlag := fun _ _ _ =>
  ⟨exec_flagThenResult rfl BitVec.toNat (BitVec.toNat_add _ _) id (carryFlag_eq _ _),
    exec_flagThenResult rfl BitVec.toNat (byte_toNat_sub _ _) id (noBorrowFlag_eq _ _),
    exec_flagThenResult rfl BitVec.toNat (byte_toNat_sub _ _) id (noBorrowFlag_eq _ _)⟩

/-- Settles O18: the write order of R120, with the bit shifted out as the flag. -/
theorem shiftsByOne : Obligations.ShiftsByOne := fun _ _ _ =>
  ⟨exec_flagThenResult rfl BitVec.toNat (byte_toNat_ushiftRight_one _) BitVec.toNat (shrFlag_toNat _),
    exec_flagThenResult rfl BitVec.toNat (byte_toNat_shiftLeft_one _) BitVec.toNat (shlFlag_toNat _)⟩

/-! ### Instructions that write Vx only -/

/-- Settles O15: rows 7 and 8 of R83, and a write of Vx that wraps by itself. -/
theorem literalLoadAndAdd : Obligations.LiteralLoadAndAdd := by
  refine ⟨encodedAs_of_row 7 (by decide), encodedAs_of_row 8 (by decide), fun x nn s =>
    ⟨⟨_, rfl, rfl, s.getV_setV_same x _, fun _ => s.getV_setV_other _⟩,
      ⟨_, rfl, rfl, ?_, fun _ => s.getV_setV_other _⟩⟩⟩
  rw [State.getV_advance, State.getV_setV_same, BitVec.toNat_add]

/-- Settles O16: rows 9 to 12 of R83, and a write of Vx whose bits are those of the operation. -/
theorem copyAndLogic : Obligations.CopyAndLogic := by
  refine ⟨encodedAs_of_row 9 (by decide), encodedAs_of_row 10 (by decide), encodedAs_of_row 11 (by decide),
    encodedAs_of_row 12 (by decide), fun x y s =>
    ⟨⟨_, rfl, rfl, s.getV_setV_same x _, fun _ => s.getV_setV_other _⟩,
      ⟨_, rfl, rfl, fun b _ => ?_, fun _ => s.getV_setV_other _⟩,
      ⟨_, rfl, rfl, fun b _ => ?_, fun _ => s.getV_setV_other _⟩,
      ⟨_, rfl, rfl, fun b _ => ?_, fun _ => s.getV_setV_other _⟩⟩⟩
  · rw [State.getV_advance, State.getV_setV_same, BitVec.getLsbD_or]
  · rw [State.getV_advance, State.getV_setV_same, BitVec.getLsbD_and]
  · rw [State.getV_advance, State.getV_setV_same, BitVec.getLsbD_xor]

/-- Settles O19: the byte written is the step's random byte ANDed with the literal. -/
theorem randomAnd : Obligations.RandomAnd := by
  refine fun x nn s => ⟨_, rfl, rfl, fun b _ => ?_, fun _ => s.getV_setV_other _⟩
  rw [State.getV_advance, State.getV_setV_same, BitVec.getLsbD_and]

end Sys2Proof.Machine

/-! SUPPORT. The index-register and memory instructions (42_index_memory.md R140 to R146): what a completed block store leaves at
each address, the decimal digits as numbers, and from them each instruction's result and frame. -/

namespace Sys2Proof.Machine

variable {s u : State} {x : Nibble}

/-! ### The index register -/

theorem byteToWord_toNat (b : Byte) : (byteToWord b).toNat = b.toNat :=
  BitVec.toNat_setWidth_of_le (by decide)

/-- Settles O20: row 19 of R83, and the literal is zero-extended. -/
theorem indexLoad : Obligations.IndexLoad :=
  ⟨encodedAs_of_row 19 (by decide), fun nnn _ => ⟨_, rfl, rfl, zext16_toNat nnn⟩⟩

/-- Settles O21: the sum wraps at 16 bits by itself, and five times a byte does not wrap. -/
theorem indexArithmetic : Obligations.IndexArithmetic := by
  refine fun x s => ⟨⟨_, rfl, rfl, ?_⟩, ⟨_, rfl, rfl, glyphAddr_toNat _⟩⟩
  rw [State.advance_idx, BitVec.toNat_add, byteToWord_toNat]

/-! ### The range check and the block store -/

/-- A memory instruction whose range lies inside memory completes (R140 (e)). -/
theorem State.checkRange_of_fits {n : Nat} (i : Instr) (h : s.idx.toNat + n ≤ 4096) : s.checkRange i n u = .next u :=
  State.checkRange_next.mpr (.inr ⟨rangeFault_none.mpr (.inr h), rfl⟩)

/-- The state after a store of `bs` from I on that completes (R144, R145). -/
def State.storeBytes (s : State) (bs : List Byte) : State :=
  { s with mem := writeBlock s.mem s.idx.toNat bs }.advance

theorem State.readByte_storeBytes_at {bs : List Byte} {k : Nat} (hm : Memory.wf s.mem = true)
    (h : s.idx.toNat + bs.length ≤ 4096) (hk : k < bs.length) :
    (s.storeBytes bs).readByte (s.idx.toNat + k) = bs[k] :=
  peek_writeBlock_at h hm hk

theorem State.readByte_storeBytes_outside {bs : List Byte} {a : Nat} (hm : Memory.wf s.mem = true)
    (h : s.idx.toNat + bs.length ≤ 4096) (ha : a < s.idx.toNat ∨ s.idx.toNat + bs.length ≤ a) :
    (s.storeBytes bs).readByte a = s.readByte a :=
  peek_writeBlock_outside h hm ha

/-! ### LD B -/

/-- No digit is cut off by its byte (R144). -/
theorem bcdDigits_map_toNat (b : Byte) :
    (bcdDigits b).map BitVec.toNat = [b.toNat / 100, b.toNat / 10 % 10, b.toNat % 10] := by
  have := b.isLt
  simp (disch := omega) only [bcdDigits, List.map_cons, List.map_nil, BitVec.toNat_ofNat, Nat.mod_eq_of_lt]

theorem exec_ldB_of_fits (h : s.idx.toNat + 2 < 4096) : exec (.ldB x) s = .next (s.storeBytes (bcdDigits (s.getV x))) :=
  (exec_ldB x s).trans (State.checkRange_of_fits _ h)

/-- Settles O22: the store of the three digits. -/
theorem bcdStoresDigits : Obligations.BcdStoresDigits := by
  intro x s hm h
  have hfit : s.idx.toNat + (bcdDigits (s.getV x)).length ≤ 4096 := h
  have hdigit (k : Nat) (hk : k < 3) :
      ((s.storeBytes (bcdDigits (s.getV x))).readByte (s.idx.toNat + k)).toNat =
        [(s.getV x).toNat / 100, (s.getV x).toNat / 10 % 10, (s.getV x).toNat % 10][k] := by
    rw [State.readByte_storeBytes_at hm hfit hk]
    exact (List.getElem_map BitVec.toNat).symm.trans (List.getElem_of_eq (bcdDigits_map_toNat _) hk)
  exact ⟨_, exec_ldB_of_fits h, rfl, hdigit 0 (by decide), hdigit 1 (by decide), hdigit 2 (by decide),
    fun a ha => State.readByte_storeBytes_outside hm hfit ha⟩

/-! ### The register dump and the register load -/

/-- The register dump is a block store of the first registers (R145). -/
theorem State.dumpRegs_eq_storeBytes : s.dumpRegs x = s.storeBytes (s.firstRegs x) := rfl

/-- Settles O23: the store of V0 to Vx. -/
theorem registerDump : Obligations.RegisterDump := by
  intro x s hm h
  have hlen : (s.firstRegs x).length = x.toNat + 1 := s.firstRegs_length x
  refine ⟨_, exec_ldMemVx_of_fits h, rfl, fun r hr => State.readByte_dumpRegs hm h hr, fun a ha => ?_⟩
  rw [State.dumpRegs_eq_storeBytes]
  exact State.readByte_storeBytes_outside hm (by omega) (by omega)

/-- The state after a LD Vx,[I] that completes (R146). -/
def State.loadFirstRegs (s : State) (x : Nibble) : State :=
  (s.loadRegs 0 (readBlock s.mem s.idx.toNat (x.toNat + 1))).advance

theorem exec_ldVxMem_of_fits (h : s.idx.toNat + x.toNat < 4096) : exec (.ldVxMem x) s = .next (s.loadFirstRegs x) :=
  (exec_ldVxMem x s).trans (State.checkRange_of_fits _ h)

theorem State.loadFirstRegs_eq : s.loadFirstRegs x = { s with v := (s.loadFirstRegs x).v, pc := s.pc + 2 } :=
  congrArg State.advance (State.loadRegs_eq _ s 0)

/-- The register load takes V0 to Vx from I on and leaves the registers above Vx (R146). -/
theorem State.getV_loadFirstRegs (r : Nibble) : (s.loadFirstRegs x).getV r =
    if r.toNat ≤ x.toNat then s.readByte (s.idx.toNat + r.toNat) else s.getV r := by
  have hx := x.isLt
  rw [State.loadFirstRegs, State.getV_advance, State.getV_loadRegs _ _ _ _ (by rw [readBlock_length]; omega)]
  by_cases hr : r.toNat ≤ x.toNat
  · rw [dif_pos (by rw [readBlock_length]; omega), if_pos hr, readBlock_getElem, Nat.sub_zero]
    rfl
  · rw [dif_neg (by rw [readBlock_length]; omega), if_neg hr]

/-- Settles O24: the block read at I, loaded from V0 on. -/
theorem registerLoad : Obligations.RegisterLoad := fun _ _ h =>
  ⟨_, exec_ldVxMem_of_fits h, State.loadFirstRegs_eq, State.getV_loadFirstRegs⟩

/-- Settles O25: the load reads the bytes that the dump wrote, since the dump leaves I. -/
theorem dumpLoadRoundTrip : Obligations.DumpLoadRoundTrip := by
  intro x s u hm h
  obtain ⟨t, hdump, ht, hbytes, -⟩ := registerDump x s hm h
  refine ⟨t, hdump, fun hmem hidx => ?_⟩
  have hI : u.idx = s.idx := by rw [hidx, ht]
  obtain ⟨z, hload, -, hregs⟩ := registerLoad x u (by rwa [hI])
  refine ⟨z, hload, fun r hr => ?_⟩
  calc z.getV r
    _ = u.readByte (u.idx.toNat + r.toNat) := by rw [hregs, if_pos hr]
    _ = t.readByte (s.idx.toNat + r.toNat) := by rw [State.readByte, hmem, hI]; rfl
    _ = s.getV r := hbytes r hr

end Sys2Proof.Machine

/-! SUPPORT. The display instructions (43_display.md R161 to R163): the state a completed draw leaves, the cells and the collision
flag in it, and from them what one draw and two draws of a sprite do. -/

namespace Sys2Proof.Machine

variable {s u : State} {x y n : Nibble} {c : Fin 64} {r : Fin 32}

/-! ### CLS -/

/-- Settles O27: the framebuffer written is the one with every cell off. -/
theorem clearScreen : Obligations.ClearScreen :=
  fun _ _ => ⟨_, rfl, rfl, Framebuffer.cell_off⟩

/-! ### DRW -/

/-- The state after a DRW that completes (R162). -/
def State.drawn (s : State) (x y n : Nibble) : State :=
  { s.setV vf (flagByte (drawSprite (s.getV x) (s.getV y) (readBlock s.mem s.idx.toNat n.toNat) s.fb).2) with
    fb := (drawSprite (s.getV x) (s.getV y) (readBlock s.mem s.idx.toNat n.toNat) s.fb).1, dirty := true }.advance

/-- DRW completes where the sprite lies inside memory, and for every I where it has no rows (R140 (e), R162). -/
theorem exec_drw_of_fits (h : n = 0 ∨ s.idx.toNat + n.toNat ≤ 4096) : exec (.drw x y n) s = .next (s.drawn x y n) := by
  have hfits : rangeFault (s.ea 0) n.toNat = none := rangeFault_none.mpr (h.imp_left fun h0 => by rw [h0]; rfl)
  rw [exec_drw]
  exact State.checkRange_next.mpr (.inr ⟨hfits, rfl⟩)

/-- A draw complements the covered cells and no other. -/
theorem State.drawn_cell :
    FlipsWhen (s.SpriteCovers x y n c r) (s.cell c r) ((s.drawn x y n).cell c r) :=
  s.drawSprite_cell x y n c r

theorem State.drawn_vf : (s.drawn x y n).getV vf =
    flagByte (drawSprite (s.getV x) (s.getV y) (readBlock s.mem s.idx.toNat n.toNat) s.fb).2 :=
  s.getV_setV_same vf _

theorem flagByte_eq_one_iff {b : Bool} : flagByte b = 1 ↔ b = true := by cases b <;> decide

/-- VF after a draw is 1 exactly when a covered cell was on. -/
theorem State.drawn_vf_eq_one_iff :
    (s.drawn x y n).getV vf = 1 ↔ ∃ c r, s.SpriteCovers x y n c r ∧ s.cell c r = true := by
  rw [State.drawn_vf, flagByte_eq_one_iff, s.drawSprite_collision]

theorem State.drawn_vf_eq_zero_or_one : (s.drawn x y n).getV vf = 0 ∨ (s.drawn x y n).getV vf = 1 :=
  State.drawn_vf ▸ flagByte_eq_zero_or_one _

/-- Settles O28: the cells and VF of the state a completed draw leaves. -/
theorem drawXorsSprite : Obligations.DrawXorsSprite := fun x y n s h =>
  ⟨s.drawn x y n, exec_drw_of_fits h, rfl, fun _ _ => State.drawn_cell.1, fun _ _ => State.drawn_cell.2,
    State.drawn_vf_eq_one_iff.mpr,
    fun hnone => State.drawn_vf_eq_zero_or_one.resolve_right fun h1 => hnone (State.drawn_vf_eq_one_iff.mp h1),
    fun _ hr => s.getV_setV_other _ hr⟩

/-! ### Drawing twice -/

/-- Reading a cell looks at the framebuffer alone. -/
theorem State.cell_congr (h : u.fb = s.fb) : u.cell c r = s.cell c r :=
  congrArg (Framebuffer.cell · c r) h

/-- Which cells a sprite covers depends on its operands and its bytes alone. -/
theorem State.spriteCovers_congr (hx : u.getV x = s.getV x) (hy : u.getV y = s.getV y)
    (hbytes : ∀ j, j < n.toNat → u.readByte (u.idx.toNat + j) = s.readByte (s.idx.toNat + j)) :
    u.SpriteCovers x y n c r ↔ s.SpriteCovers x y n c r :=
  exists_congr fun j => exists_congr fun k => and_congr_right fun hj => by rw [hx, hy, hbytes j hj]

/-- Complementing twice under the same condition changes nothing. -/
theorem FlipsWhen.twice {p : Prop} {a b d : Bool} (h : FlipsWhen p a b) (k : FlipsWhen p b d) : d = a := by
  by_cases hp : p
  · rw [k.1 hp, h.1 hp, Bool.not_not]
  · rw [k.2 hp, h.2 hp]

/-- Settles O29: both draws cover the same cells, so the second complements back what the first complemented, and collides where
the first found a cell off. -/
theorem drawTwiceRestores : Obligations.DrawTwiceRestores := by
  intro x y n s u h
  refine ⟨s.drawn x y n, exec_drw_of_fits h, fun hfb hidx hx hy hbytes => ?_⟩
  have hcovers {c r} : u.SpriteCovers x y n c r ↔ s.SpriteCovers x y n c r := State.spriteCovers_congr hx hy hbytes
  have hfirst {c r} : FlipsWhen (s.SpriteCovers x y n c r) (s.cell c r) (u.cell c r) :=
    State.cell_congr hfb ▸ State.drawn_cell
  refine ⟨u.drawn x y n, exec_drw_of_fits (by rwa [hidx]), ?_, ?_⟩
  · exact Framebuffer.ext_cell fun _ _ => hfirst.twice (State.drawn_cell.congr hcovers)
  · rw [State.drawn_vf_eq_one_iff]
    refine exists_congr fun c => exists_congr fun r => ?_
    rw [hcovers]
    exact and_congr_right fun hc => by rw [hfirst.1 hc, Bool.not_eq_true']

end Sys2Proof.Machine

/-! SUPPORT. Keys and timers (44_keys_timers.md R170 to R176): the key level a register names, the value of a key event, the level
SOUND_ON, the end of a step that waits for a key, and from them the key skips, the wait and the timer moves. -/

namespace Sys2Proof.Machine

variable {s : State}

/-! ### LD Vx,K -/

/-- A key index fits a register unchanged (R173). -/
theorem nibbleToByte_toNat (k : Nibble) : (nibbleToByte k).toNat = k.toNat :=
  BitVec.toNat_setWidth_of_le (by decide)

/-- Settles O31: the two cases of LD Vx,K; the write of Vx leaves every other register. -/
theorem awaitKey : Obligations.AwaitKey := by
  intro x s
  constructor
  · exact fun hnone => exec_ldVxK_next.mpr (.inl ⟨hnone, rfl⟩)
  · intro k hk
    refine ⟨_, exec_ldVxK_next.mpr (.inr ⟨k, hk, rfl⟩), rfl, ?_, fun _ => s.getV_setV_other _⟩
    calc ((s.setV x (nibbleToByte k)).getV x).toNat
      _ = (nibbleToByte k).toNat := by rw [State.getV_setV_same]
      _ = k.toNat := nibbleToByte_toNat k

/-- Without a picture to present, Present does nothing (45_execution_loop.md R204). -/
theorem State.present_of_clean (h : s.dirty = false) : s.present = s := by
  rw [State.present, h, if_neg Bool.false_ne_true]

/-- The end of a step that waits for a key only uses up the inputs: the ticks are discarded (R200, 60_exceptions.md R237). -/
theorem State.endStep_of_waiting (hw : s.wait = true) (hd : s.dirty = false) : s.endStep = s.consumeInput := by
  cases hr : s.status with
  | running => rw [State.endStep, State.boundary, if_pos hr, if_pos hw, State.present_of_clean hd]
  | halted => exact State.endStep_of_halted hr

/-- Settles O51: LD Vx,K without a key event, and the end of a step that waits. -/
theorem waitStepChangesOnlyWait : Obligations.WaitStepChangesOnlyWait := by
  intro s w x hs hd hf hdec hnone
  have hexec : exec (.ldVxK x) s.beginStep = .next { s.beginStep with wait := true } :=
    (awaitKey x s.beginStep).1 hnone
  have hend : ({ s.beginStep with wait := true } : State).endStep = State.consumeInput { s.beginStep with wait := true } :=
    State.endStep_of_waiting rfl hd
  exact (step_of_exec hs hf hdec hexec).trans (congrArg Host.Outcome.next hend)

/-! ### SKP and SKNP -/

/-- When a key counts as down: the register names a key, and its level is 1 in the sample (R171, decision D15). -/
theorem keyDown_eq_true_iff {keys : BitVec Config.nKey} {b : Byte} :
    keyDown keys b = true ↔ b.toNat < 16 ∧ keys.getLsbD b.toNat = true := by
  rw [keyDown, Bool.and_eq_true, decide_eq_true_iff]

/-- The state a skip on the opposite of a condition leaves (R172). -/
theorem State.jump_skipTarget_not {c : Bool} {p : Prop} [Decidable p] (h : c = true ↔ p) :
    s.jump (s.skipTarget (!c)) = { s with pc := if p then s.pc + 2 else s.pc + 4 } := by
  have hnot : (!c) = true ↔ ¬ p := by rw [Bool.not_eq_true', ← h, Bool.not_eq_true]
  rw [State.jump_skipTarget hnot, ite_not]

/-- Settles O30: the sampled level is the condition of both skips, and the ignored nibble takes no part. -/
theorem keySkips : Obligations.KeySkips := fun _ _ _ =>
  ⟨congrArg Host.Outcome.next (State.jump_skipTarget keyDown_eq_true_iff),
    congrArg Host.Outcome.next (State.jump_skipTarget_not keyDown_eq_true_iff)⟩

/-! ### The timer moves -/

/-- SOUND_ON is on exactly while ST is not 0 (10_state.md R31). -/
theorem State.soundOn_eq_true_iff : s.soundOn = true ↔ s.st.toNat ≠ 0 := by
  rw [State.soundOn, bne_iff_ne]
  exact BitVec.toNat_ne_iff_ne.symm

/-- Settles O32: rows 25, 27 and 28 of R83, and each move is one write and the increment. -/
theorem timerMoves : Obligations.TimerMoves :=
  ⟨encodedAs_of_row 25 (by decide), encodedAs_of_row 27 (by decide), encodedAs_of_row 28 (by decide), fun x s =>
    ⟨⟨_, rfl, rfl, s.getV_setV_same x _, fun _ => s.getV_setV_other _⟩, rfl,
      ⟨_, rfl, rfl, State.soundOn_eq_true_iff⟩⟩⟩

end Sys2Proof.Machine

/-! SUPPORT. The execution loop (45_execution_loop.md R190 to R206): which inputs an instruction reads, the end of a step, the steps
that halt or find the engine halted, and the steps that present a picture. -/

namespace Sys2Proof

/-- CLS and DRW, the instructions that draw (10_state.md R38). -/
def Instr.Draws (i : Instr) : Prop := (∃ ign, i = .cls ign) ∨ ∃ x y n, i = .drw x y n

end Sys2Proof

namespace Sys2Proof.Machine

variable {s t u : State} {i : Instr} {w : Word}

/-! ### The inputs of a step -/

/-- The state with other inputs to come (log entry 1). -/
def State.withInputs (s : State) (inps : List StepInput) (q : Nat) : State := { s with inputs := inps, seq := q }

theorem State.loadRegs_withInputs (inps : List StepInput) (q : Nat) (bs : List Byte) : ∀ (s : State) (k : Nat),
    (s.withInputs inps q).loadRegs k bs = (s.loadRegs k bs).withInputs inps q := by
  induction bs with
  | nil => exact fun s k => rfl
  | cons b bs ih => exact fun s k => ih (s.setV (BitVec.ofNat 4 k) b) (k + 1)

/-- The range check of a memory instruction carries the inputs along where its completed state does. -/
theorem State.checkRange_withInputs {n : Nat} {u' : State} (inps : List StepInput) (q : Nat)
    (h : s.checkRange i n u = .next t) (hu : u' = u.withInputs inps q) :
    (s.withInputs inps q).checkRange i n u' = .next (t.withInputs inps q) := by
  obtain ⟨a, ha, rfl⟩ | ⟨hn, rfl⟩ := State.checkRange_next.mp h
  · exact State.checkRange_next.mpr (.inl ⟨a, ha, rfl⟩)
  · exact State.checkRange_next.mpr (.inr ⟨hn, hu.symm⟩)

theorem exec_rnd (x : Nibble) (nn : Byte) (s : State) :
    exec (.rnd x nn) s = .next (s.setV x (s.input.rnd &&& nn)).advance := rfl

theorem exec_skp (x ign : Nibble) (s : State) :
    exec (.skp x ign) s = .next (s.jump (s.skipTarget (keyDown s.input.keys (s.getV x)))) := rfl

theorem exec_sknp (x ign : Nibble) (s : State) :
    exec (.sknp x ign) s = .next (s.jump (s.skipTarget (!keyDown s.input.keys (s.getV x)))) := rfl

/-- Every instruction carries the inputs along: RND, the key skips and LD Vx,K where the one input that each reads is the same, the
others unread (R190). -/
theorem exec_withInputs (inps : List StepInput) (q : Nat) (h : exec i s = .next t)
    (hrnd : (∃ x nn, i = .rnd x nn) → (s.withInputs inps q).input.rnd = s.input.rnd)
    (hkeys : (∃ x ign, i = .skp x ign ∨ i = .sknp x ign) → (s.withInputs inps q).input.keys = s.input.keys)
    (hevt : (∃ x, i = .ldVxK x) → (s.withInputs inps q).input.keyEvt = s.input.keyEvt) :
    exec i (s.withInputs inps q) = .next (t.withInputs inps q) := by
  cases i with
  | rnd x nn => cases h; rw [exec_rnd, hrnd ⟨x, nn, rfl⟩]; rfl
  | skp x ign => cases h; rw [exec_skp, hkeys ⟨x, ign, .inl rfl⟩]; rfl
  | sknp x ign => cases h; rw [exec_sknp, hkeys ⟨x, ign, .inr rfl⟩]; rfl
  | ldVxK x =>
    have hsame := hevt ⟨x, rfl⟩
    obtain ⟨hn, rfl⟩ | ⟨k, hk, rfl⟩ := exec_ldVxK_next.mp h
    · exact exec_ldVxK_next.mpr (.inl ⟨hsame.trans hn, rfl⟩)
    · exact exec_ldVxK_next.mpr (.inr ⟨k, hsame.trans hk, rfl⟩)
  | ret ign =>
    obtain ⟨h0, rfl⟩ | ⟨k, hk, rfl⟩ := exec_ret_next.mp h
    · exact exec_ret_next.mpr (.inl ⟨h0, rfl⟩)
    · exact exec_ret_next.mpr (.inr ⟨k, hk, rfl⟩)
  | call nnn =>
    obtain ⟨h16, rfl⟩ | ⟨hlt, rfl⟩ := exec_call_next.mp h
    · exact exec_call_next.mpr (.inl ⟨h16, rfl⟩)
    · exact exec_call_next.mpr (.inr ⟨hlt, rfl⟩)
  | drw x y n =>
    rw [exec_drw] at h ⊢
    exact State.checkRange_withInputs inps q h rfl
  | ldB x =>
    rw [exec_ldB] at h ⊢
    exact State.checkRange_withInputs inps q h rfl
  | ldMemVx x =>
    rw [exec_ldMemVx] at h ⊢
    exact State.checkRange_withInputs inps q h rfl
  | ldVxMem x =>
    rw [exec_ldVxMem] at h ⊢
    exact State.checkRange_withInputs inps q h (congrArg State.advance (State.loadRegs_withInputs inps q _ s 0))
  | _ => cases h; rfl

/-- Settles O41: the exchange of the inputs is `State.withInputs`. -/
theorem inputsAreReadOnlyByTheirInstructions : Obligations.InputsAreReadOnlyByTheirInstructions :=
  fun _ _ _ inps q => exec_withInputs inps q

/-! ### The end of a step -/

theorem State.ticks_events (n : Nat) (s : State) : (State.ticks n s).events = s.events := by rw [State.ticks_frame]

/-- What Present emits (R204). -/
theorem State.present_events (s : State) :
    s.present.events = s.events ++ if s.dirty = true then [.present s.fb] else [] := by
  cases hd : s.dirty with
  | true => rw [State.present, if_pos hd]; rfl
  | false => rw [State.present_of_clean hd]; exact (List.append_nil _).symm

theorem State.present_dt (s : State) : s.present.dt = s.dt := by rw [State.present_frame]

theorem State.present_st (s : State) : s.present.st = s.st := by rw [State.present_frame]

/-- A waiting engine's step drops its ticks (R237). -/
theorem State.endStep_of_wait (hr : s.status = .running) (hw : s.wait = true) : s.endStep = s.present.consumeInput := by
  rw [State.endStep, State.boundary, if_pos hr, if_pos hw]

/-- Any other Running engine's step presents and then ticks (R203, R204). -/
theorem State.endStep_of_ticking (hr : s.status = .running) (hw : s.wait = false) :
    s.endStep = (State.ticks s.input.ticks s.present).consumeInput := by
  rw [State.endStep, State.boundary, if_pos hr, hw, if_neg Bool.false_ne_true]

theorem State.endStep_events_of_running (hr : s.status = .running) : s.endStep.events = s.present.events := by
  cases hw : s.wait with
  | true => rw [State.endStep_of_wait hr hw]; rfl
  | false => rw [State.endStep_of_ticking hr hw]; exact State.ticks_events _ _

/-- Settles O50: a halted, a waiting and a ticking engine end their steps each in their own way. -/
theorem endOfStep : Obligations.EndOfStep := by
  intro u
  refine ⟨_, rfl, u.endStep_frame, fun hr => ⟨State.endStep_dirty_of_running hr, ?_, fun hw => ?_, fun hw => ?_⟩, fun hh => ?_⟩
  · rw [State.endStep_events_of_running hr, State.present_events]
  · have htimers := State.ticks_timers u.input.ticks u.present
    rw [State.present_dt, State.present_st] at htimers
    rwa [State.endStep_of_ticking hr hw]
  · rw [State.endStep_of_wait hr hw]
    exact ⟨u.present_dt, u.present_st⟩
  · rw [State.endStep_of_halted hh]
    exact ⟨rfl, rfl, rfl, rfl⟩

/-! ### The cases of a step -/

theorem step_of_exec_fault {f : Fault} (h : s.AboutToFetch) (hf : s.fetch = .ok w) (hd : decode w = .ok i)
    (hx : exec i s.beginStep = .fault f) : step s = .fault f := by
  obtain ⟨hr, ha, hp⟩ := h
  simp [step, stepWith, hr, ha, hp, hf, hd, hx]

theorem step_of_exec_refused {r : Refusal} (h : s.AboutToFetch) (hf : s.fetch = .ok w) (hd : decode w = .ok i)
    (hx : exec i s.beginStep = .refused r) : step s = .refused r := by
  obtain ⟨hr, ha, hp⟩ := h
  simp [step, stepWith, hr, ha, hp, hf, hd, hx]

/-- Settles O44: a step that comes to its instruction answers by the outcome of that instruction. -/
theorem stepRunsDecodedInstruction : Obligations.StepRunsDecodedInstruction := by
  intro s w i h hf hd
  cases hx : exec i { s with events := [] } with
  | next u => exact step_of_exec h hf hd hx
  | fault f => exact step_of_exec_fault h hf hd hx
  | refused r => exact step_of_exec_refused h hf hd hx

/-- A step that ends in a halt uses up its inputs and does nothing more (R201). -/
theorem step_of_halting (h : step s = .next u.endStep) (hu : u.status = .halted) : step s = .next u.consumeInput := by
  rw [h, State.endStep_of_halted hu]

/-- Settles O46, by induction on the number of steps: the first uses up its inputs and leaves the engine halted. -/
theorem haltedIsAbsorbing : Obligations.HaltedIsAbsorbing := by
  intro k
  induction k with
  | zero =>
    intro s h
    rw [core_run_succ (step_of_halting (step_of_halted h) h), List.drop_one]
    rfl
  | succ k ih =>
    intro s h
    refine (core_run_succ (step_of_halting (step_of_halted h) h)).trans ((ih s.beginStep.consumeInput h).trans ?_)
    have hseq : s.seq + 1 + (k + 1) = s.seq + (k + 1 + 1) := by omega
    rw [State.consumeInput_inputs, List.drop_tail, State.consumeInput_seq, State.beginStep_seq, hseq]
    rfl

/-- Settles O47: the abort is tested before the engine does anything. -/
theorem abortHalts : Obligations.AbortHalts := fun _ hr ha => step_of_halting (step_of_abort hr ha) rfl

theorem State.pastEnd_eq_true_iff : s.pastEnd = true ↔ s.progSize.toNat + 0x200 < s.pc.toNat := decide_eq_true_iff

/-- Settles O48: the two clauses are the two answers of the end-of-program test. -/
theorem endOfProgramHalts : Obligations.EndOfProgramHalts := by
  intro s hr ha
  constructor
  · exact fun h => step_of_halting (step_of_pastEnd hr ha (State.pastEnd_eq_true_iff.mpr h)) rfl
  · intro h
    exact ⟨hr, ha, Bool.eq_false_of_not_eq_true (mt State.pastEnd_eq_true_iff.mp (Nat.not_lt.mpr h))⟩

/-- Settles O49: the read of two bytes at pc fails, and its address fits FADDR. -/
theorem fetchFaultHalts : Obligations.FetchFaultHalts := by
  intro s h hpc
  have hfetch : s.fetch = .error (max s.pc.toNat 4096) := memRead2_error (by omega)
  refine ⟨_, step_of_halting (step_of_fetch_error h hfetch) rfl, rfl, Nat.mod_eq_of_lt ?_⟩
  have := s.pc.isLt
  omega

/-! ### Which steps present -/

/-- The step from `s` to `t` fetched and completed an instruction that draws. -/
def State.CompletesDrawing (s t : State) : Prop :=
  s.AboutToFetch ∧ t.status = .running ∧ ∃ w i, s.fetch = .ok w ∧ decode w = .ok i ∧ i.Draws

theorem State.completesDrawing_iff (h : s.AboutToFetch) (hf : s.fetch = .ok w) (hd : decode w = .ok i) :
    s.CompletesDrawing t ↔ t.status = .running ∧ i.Draws := by
  simp [State.CompletesDrawing, h, hf, hd]

theorem exec_dirty_of_draws (hi : i.Draws) (h : exec i s = .next u) (hu : u.status = .running) : u.dirty = true := by
  obtain ⟨ign, rfl⟩ | ⟨x, y, n, rfl⟩ := hi
  · cases h; rfl
  · rw [exec_drw] at h
    obtain ⟨a, _, rfl⟩ | ⟨_, rfl⟩ := State.checkRange_next.mp h
    · cases hu
    · rfl

theorem exec_dirty_of_not_draws (hi : ¬ i.Draws) (h : exec i s = .next u) : u.dirty = s.dirty := by
  obtain ⟨_, _, _, _, _, _, hdraws, _⟩ := eachStateHasItsWriters i s u h
  exact not_ne_iff.mp fun hne => hi (hdraws (.inr hne))

/-- An instruction emits nothing while the engine stays Running, and a fatal error when it halts it (10_state.md R45). -/
theorem Effect.events (he : Effect s i u) (hr : s.status = .running) :
    (u.status = .running ∧ u.events = s.events) ∨
    (u.status = .halted ∧ ∃ e a, u.events = s.events ++ [.fatal e s.pc (encode i) a]) := by
  cases he with
  | fails => exact .inr ⟨rfl, _, _, rfl⟩
  | _ => exact .inl ⟨hr, rfl⟩

/-- Without a picture to present, the end of a step emits nothing (R204). -/
theorem State.endStep_events_of_clean (hd : s.dirty = false) : s.endStep.events = s.events := by
  cases hr : s.status with
  | running => rw [State.endStep_events_of_running hr, State.present_of_clean hd]
  | halted => rw [State.endStep_of_halted hr]; rfl

/-- The end of a step that drew presents the picture drawn (R204). -/
theorem State.endStep_events_of_dirty (hr : s.status = .running) (hd : s.dirty = true) :
    s.endStep.events = s.events ++ [.present s.endStep.fb] := by
  rw [State.endStep_events_of_running hr, State.present_events, if_pos hd, State.endStep_frame]

/-- The two kinds of steps from a state with DIRTY clear (R204): one that completes a CLS or a DRW emits the picture it leaves, and
any other emits no picture. -/
theorem step_presents_or_not (hd : s.dirty = false) (h : step s = .next t) :
    (s.CompletesDrawing t ∧ t.events = [.present t.fb]) ∨
    (¬ s.CompletesDrawing t ∧ ∀ fb, Event.present fb ∉ t.events) := by
  obtain ⟨hr, rfl⟩ | ⟨_, ha, rfl⟩ | ⟨_, _, hp, rfl⟩ | ⟨_, a, hf, rfl⟩ | ⟨_, w, e, hf, hw, rfl⟩ |
    ⟨hb, w, i, u, hf, hw, hx, rfl⟩ := step_cases h
  · exact .inr ⟨fun ⟨⟨hrun, _, _⟩, _⟩ => (nomatch hr.symm.trans hrun), by simp [State.endStep_events_of_clean, hd]⟩
  · exact .inr ⟨fun ⟨⟨_, habort, _⟩, _⟩ => (nomatch ha.symm.trans habort), by simp [State.endStep_events_of_clean, hd]⟩
  · exact .inr ⟨fun ⟨⟨_, _, hend⟩, _⟩ => (nomatch hp.symm.trans hend), by simp [State.endStep_events_of_clean, hd]⟩
  · exact .inr ⟨fun ⟨_, _, _, _, hok, _⟩ => (nomatch hf.symm.trans hok), by simp [State.endStep_events_of_clean, hd]⟩
  · refine .inr ⟨fun ⟨_, _, _, _, hok, hdec, _⟩ => ?_, by simp [execUnknown, State.endStep_events_of_clean, hd]⟩
    cases hf.symm.trans hok
    exact nomatch hw.symm.trans hdec
  · have hst : u.endStep.status = u.status := by rw [State.endStep_frame]
    rw [State.completesDrawing_iff hb hf hw, hst]
    obtain ⟨hu, hev⟩ | ⟨hu, _, _, hev⟩ := (exec_effect hx).events hb.1
    · by_cases hi : i.Draws
      · have hdirty := exec_dirty_of_draws hi hx hu
        exact .inl ⟨⟨hu, hi⟩, by rw [State.endStep_events_of_dirty hu hdirty, hev]; rfl⟩
      · have hclean : u.dirty = false := (exec_dirty_of_not_draws hi hx).trans hd
        exact .inr ⟨fun hc => hi hc.2, by simp [State.endStep_events_of_clean hclean, hev]⟩
    · exact .inr ⟨by simp [hu], by simp [State.endStep_of_halted hu, hev]⟩

/-- Settles O52: the two kinds of steps decide both clauses. -/
theorem presentExactlyAfterDrawing : Obligations.PresentExactlyAfterDrawing := by
  intro s t hd h
  obtain ⟨hc, he⟩ | ⟨hc, he⟩ := step_presents_or_not hd h
  · exact ⟨iff_of_true ⟨t.fb, he ▸ List.mem_singleton_self _⟩ hc, fun _ _ => he⟩
  · exact ⟨iff_of_false (fun ⟨fb, hfb⟩ => he fb hfb) hc, fun fb hfb => absurd hfb (he fb)⟩

end Sys2Proof.Machine

/-! SUPPORT. Errors (60_exceptions.md R220 to R237): that an instruction fails exactly where `Instr.raises` says and leaves the fault
record alone elsewhere, what taking a fatal error writes, the unknown word, and one tick. -/

namespace Sys2Proof.Machine

variable {s t u : State} {i : Instr}

/-! ### Where an instruction fails -/

/-- An instruction that checks its range fails with what it raises (R221): `Effect.of_checkRange` in the other direction. -/
theorem State.checkRange_of_raises {n : Nat} {e : FatalError} {a : Nat} (h : i.raises s = some (e, a))
    (hr : i.raises s =
      if 0 < n ∧ 4096 ≤ s.idx.toNat + n - 1 then some (.addressOutOfRange, max s.idx.toNat 4096) else none) :
    s.checkRange i n u = .next (s.takeFatal e (encode i) a) := by
  obtain ⟨⟨hpos, hle⟩, hea⟩ := Option.ite_none_right_eq_some.mp (hr.symm.trans h)
  cases hea
  exact State.checkRange_next.mpr (.inl ⟨_, rangeFault_some.mpr ⟨hpos, by simp only [State.ea]; omega, rfl⟩, rfl⟩)

/-- Where an instruction raises an error, its answer is the taking of that error and nothing else (R229, decision D18). -/
theorem exec_of_raises {e : FatalError} {a : Nat} (h : i.raises s = some (e, a)) :
    exec i s = .next (s.takeFatal e (encode i) a) := by
  cases i with
  | call nnn =>
    obtain ⟨h16, hea⟩ := Option.ite_none_right_eq_some.mp h
    cases hea
    exact exec_call_next.mpr (.inl ⟨h16, rfl⟩)
  | ret ign =>
    obtain ⟨h0, hea⟩ := Option.ite_none_right_eq_some.mp h
    cases hea
    exact exec_ret_next.mpr (.inl ⟨h0, rfl⟩)
  | drw x y n => exact (exec_drw x y n s).trans (State.checkRange_of_raises h rfl)
  | ldB x => exact (exec_ldB x s).trans (State.checkRange_of_raises h (by simp [Instr.raises]))
  | ldMemVx x => exact (exec_ldMemVx x s).trans (State.checkRange_of_raises h (by simp [Instr.raises]))
  | ldVxMem x => exact (exec_ldVxMem x s).trans (State.checkRange_of_raises h (by simp [Instr.raises]))
  | _ => cases h

/-- An instruction that raises no error leaves STATUS, CAUSE, the fault record and the events (R225). -/
theorem Effect.keeps_record (he : Effect s i t) (hr : i.raises s = none) : t.status = s.status ∧ t.cause = s.cause ∧
    t.fpc = s.fpc ∧ t.fword = s.fword ∧ t.faddr = s.faddr ∧ t.events = s.events := by
  cases he with
  | fails h => exact nomatch hr.symm.trans h
  | _ => exact ⟨rfl, rfl, rfl, rfl, rfl, rfl⟩

/-- Settles O36: where an error is raised it is taken; elsewhere the instruction answers, with an effect that is no failure. -/
theorem fatalErrorsArePrecise : Obligations.FatalErrorsArePrecise := by
  refine fun i s hsp => ⟨fun _ _ => exec_of_raises, fun hr => ?_⟩
  obtain ⟨t, ht⟩ := exec_total i hsp
  exact ⟨t, ht, (exec_effect ht).keeps_record hr⟩

/-! ### What errors and ticks write -/

/-- Settles O35: a 17-bit address is recorded whole. -/
theorem fatalErrorRecord : Obligations.FatalErrorRecord :=
  fun _ _ _ _ ha => ⟨_, rfl, rfl, Nat.mod_eq_of_lt ha, rfl⟩

/-- The unknown-opcode handler, at the head of a step, as one update (R199). -/
theorem execUnknown_beginStep (w : Word) (s : State) :
    execUnknown w s.beginStep = { s with pc := s.pc + 2, events := [.unknownOpcode w s.pc] } := rfl

/-- Settles O45: the step is the unknown-opcode handler and the common end. -/
theorem unknownWordIsReportedNoOp : Obligations.UnknownWordIsReportedNoOp :=
  fun s w h hf hd => ⟨_, step_of_decode_error h hf hd, execUnknown_beginStep w s⟩

/-- A tick lowers a timer only if it is not zero (R235). -/
theorem tickTimer_toNat_eq_ite (b : Byte) : (tickTimer b).toNat = if 0 < b.toNat then b.toNat - 1 else b.toNat := by
  rw [tickTimer_toNat]
  split <;> omega

/-- Settles O33: a tick is `tickTimer` on each of the two timers. -/
theorem tickLowersTimers : Obligations.TickLowersTimers :=
  fun s => ⟨_, rfl, rfl, tickTimer_toNat_eq_ite s.dt, tickTimer_toNat_eq_ite s.st⟩

end Sys2Proof.Machine

/-! SUPPORT. The invariant in the launch states (70_reset_and_hazards.md R256, R257). -/

namespace Sys2Proof.Machine

variable {font : Config.Font} {s t : State} {rom : Option (List Byte)}

/-- The largest program ends where memory does (R36). -/
theorem program_fits {bytes : List Byte} (h : bytes.length ≤ Config.maxProg) :
    Config.progBase + bytes.length ≤ Config.memSize := Nat.add_le_add_left h Config.progBase

/-- Loading keeps what reset established: it writes memory and PROG_SIZE only, and the engine is neither halted nor waiting. -/
theorem State.launch_inv (h : s.launch font rom = .ok t) : t.Inv := by
  obtain ⟨-, hr⟩ | ⟨_, -, -, hr⟩ | ⟨bytes, -, hl, hr⟩ := State.launch_cases font s h
  · cases hr
  · cases hr
  · cases hr
    exact { State.hostReset_inv font s with
      mem_wf := writeBlock_wf (program_fits hl) (fontMemory_wf font)
      progSize_le := (BitVec.toNat_ofNat _ _).trans_le ((Nat.mod_le _ _).trans hl)
      ended := nofun
      wait_at_key := nofun }

/-- Settles O54: reset establishes the invariant, and loading a program that fits keeps it. -/
theorem invariantHoldsAtLaunch : Obligations.InvariantHoldsAtLaunch :=
  fun font s => ⟨State.hostReset_inv font s, fun _ _ => State.launch_inv⟩

end Sys2Proof.Machine
